-- ==== Sys2Proof/Word.lean ====
section
/-! DEFINITION. The widths of the core's interface (10_state.md R13, R18; 30_encoding.md R39, R41). -/

namespace Sys2Proof

/-- A command word, 32 bits (`CMD_WIDTH`, R39). -/
abbrev Cmd := BitVec 32

/-- A 16-bit word: RESULT, STATUS, `CMD.DATA`, a sample pattern (R13, R39). -/
abbrev Half := BitVec 16

/-- A code byte, 8 bits (`CODE_WIDTH`, R6). -/
abbrev Byte := BitVec 8

end Sys2Proof
end

