-- ==== Sys2Proof/Machine/Operands.lean ====
section
/-! DEFINITION. The conversions between bit patterns and integers (00_scope.md R8, R9), the fields of a
command word (30_encoding.md R39) and the packing of results (30_encoding.md R47). -/

namespace Sys2Proof.Machine

/-- `s16(p)`: the integer that a 16-bit pattern denotes in two's complement (R9). -/
def s16 (p : Half) : Int :=
  if p.getLsbD 15 then (p.toNat : Int) - 65536 else (p.toNat : Int)

/-- `bits16(v)`: the 16-bit two's-complement pattern of `v`, for -32768 ≤ v ≤ 32767 (R9). -/
def bits16 (v : Int) : Half := BitVec.ofInt 16 v

/-- `zext_16(v)`: the 16-bit pattern of `0 ≤ v < 2^16` (R9). -/
def zext16 (v : Nat) : Half := BitVec.ofNat 16 v

/-- `sext_16(p)` of a code byte: the pattern of its signed 8-bit container (R9, R44). -/
def sext16 (p : Byte) : Half := p.signExtend 16

/-- `~8(v)`: the 8-bit one's complement of `0 ≤ v ≤ 0xFF` (R8). -/
def not8 (v : Nat) : Nat := 0xFF - v

/-- `CMD.RSVD`, bits 31:19 (R39). -/
def rsvdField (w : Cmd) : BitVec 13 := w.extractLsb' 19 13

/-- `CMD.OP`, bits 18:16 (R39). -/
def opField (w : Cmd) : BitVec 3 := w.extractLsb' 16 3

/-- `CMD.DATA`, bits 15:0 (R39). -/
def dataField (w : Cmd) : Half := w.extractLsb' 0 16

/-- `DATA[7:0]`, the code operand of a decoder (R41). -/
def codeField (d : Half) : Byte := d.extractLsb' 0 8

/-- `DATA[15:8]`, the byte a decoder ignores (R44). -/
def ignoredField (d : Half) : Byte := d.extractLsb' 8 8

/-- The command word with the given `OP` and `DATA` and `RSVD = 0` (R39, R52). -/
def commandWord (op : BitVec 3) (data : Half) : Cmd := 0#13 ++ op ++ data

end Sys2Proof.Machine
end

