-- ==== Sys2Proof/Syntax.lean ====
section
/-! DEFINITION. The five commands of the core (00_scope.md R2, 30_encoding.md R40), one constructor per
row of the opcode table. -/

namespace Sys2Proof

/-- A command with its operand as 30_encoding.md R41 assembles it: exact integers, as every value of
the pseudocode is (00_scope.md R8). `Instr.wellFormed` gives their ranges.
The decoders keep the ignored byte `DATA[15:8]` as `hi`, so that no bit of a legal word is lost; their
meanings do not read it (R44; log 10). -/
inductive Instr where
  /-- `ALAW_ENC` (42_alaw.md R63): encode the sample `x` to an A-law code. -/
  | alawEnc (x : Int)
  /-- `ALAW_DEC` (42_alaw.md R68): decode the A-law code `c`. -/
  | alawDec (hi c : Nat)
  /-- `ULAW_ENC` (43_mulaw.md R75): encode the sample `x` to a μ-law code. -/
  | ulawEnc (x : Int)
  /-- `ULAW_DEC` (43_mulaw.md R81): decode the μ-law code `c`. -/
  | ulawDec (hi c : Nat)
  /-- `SEG_SEARCH` (41_segment_search.md R57): the segment of the magnitude `m`. -/
  | segSearch (m : Nat)
deriving DecidableEq, Repr

end Sys2Proof
end

