-- ==== Sys2Proof/WellFormed.lean ====
section
/-! DEFINITION. The operand ranges of 30_encoding.md R41. -/

namespace Sys2Proof

/-- A sample operand: an integer in [-32768, 32767] (R41, D8). -/
def isSample (x : Int) : Bool := decide (-32768 ≤ x) && decide (x ≤ 32767)

/-- A code operand, or the ignored byte beside it: 0 to 255 (R41, R44). -/
def isByte (c : Nat) : Bool := decide (c ≤ 255)

/-- A magnitude operand: 0 to 65535 (R41). -/
def isMagnitude (m : Nat) : Bool := decide (m ≤ 65535)

/-- The command's operands lie in the ranges that R41 gives them. -/
def Instr.wellFormed : Instr → Bool
  | .alawEnc x => isSample x
  | .alawDec hi c => isByte hi && isByte c
  | .ulawEnc x => isSample x
  | .ulawDec hi c => isByte hi && isByte c
  | .segSearch m => isMagnitude m

end Sys2Proof
end

