-- ==== Sys2Proof/Decode.lean ====
section
/-! DEFINITION. The decode step of 30_encoding.md R46, total on all 2^32 words, the encoder written from
the same table (R39, R40, R41), and the rows of the opcode map. -/

namespace Sys2Proof

open Sys2Proof.Machine

/-- What the decode step answers: a command, or one of the two ways a word is illegal (R42, R43). -/
inductive Decoded where
  /-- A legal word and its command. -/
  | instr (i : Instr)
  /-- `RSVD != 0`: illegal whatever OP and DATA (R42). -/
  | rsvdNonzero
  /-- `OP` in {5, 6, 7}: illegal whatever DATA (R43). -/
  | opReserved
deriving DecidableEq, Repr

/-- The decode step (R46). R42 is tested before R43, and either alone raises the one IllegalCommand
(60_exceptions.md R99). -/
def decode (w : Cmd) : Decoded :=
  if rsvdField w ≠ 0#13 then .rsvdNonzero
  else if opField w = 0b000#3 then .instr (.alawEnc (s16 (dataField w)))
  else if opField w = 0b001#3 then
    .instr (.alawDec (ignoredField (dataField w)).toNat (codeField (dataField w)).toNat)
  else if opField w = 0b010#3 then .instr (.ulawEnc (s16 (dataField w)))
  else if opField w = 0b011#3 then
    .instr (.ulawDec (ignoredField (dataField w)).toNat (codeField (dataField w)).toNat)
  else if opField w = 0b100#3 then .instr (.segSearch (dataField w).toNat)
  else .opReserved

/-- The word decodes to a command: it is a legal command word. -/
def legalWord (w : Cmd) : Bool :=
  match decode w with
  | .instr _ => true
  | .rsvdNonzero => false
  | .opReserved => false

/-- The `OP` value of a command (R40). -/
def opOf : Instr → BitVec 3
  | .alawEnc _ => 0b000#3
  | .alawDec _ _ => 0b001#3
  | .ulawEnc _ => 0b010#3
  | .ulawDec _ _ => 0b011#3
  | .segSearch _ => 0b100#3

/-- The `DATA` field of a command (R41, R52). -/
def dataOf : Instr → Half
  | .alawEnc x => bits16 x
  | .alawDec hi c => BitVec.ofNat 8 hi ++ BitVec.ofNat 8 c
  | .ulawEnc x => bits16 x
  | .ulawDec hi c => BitVec.ofNat 8 hi ++ BitVec.ofNat 8 c
  | .segSearch m => zext16 m

/-- The command word of a well-formed command (R39). -/
def encode (i : Instr) : Cmd := commandWord (opOf i) (dataOf i)

/-- The five mnemonics (R40, R52). -/
inductive Mnemonic where
  | alawEnc
  | alawDec
  | ulawEnc
  | ulawDec
  | segSearch
deriving DecidableEq, Repr

/-- The mnemonic of a command (R40). -/
def Instr.mnemonic : Instr → Mnemonic
  | .alawEnc _ => .alawEnc
  | .alawDec _ _ => .alawDec
  | .ulawEnc _ => .ulawEnc
  | .ulawDec _ _ => .ulawDec
  | .segSearch _ => .segSearch

/-- One row of the opcode map (30_encoding.md section 3). -/
structure OpcodeRow where
  mnemonic : Mnemonic
  mask : Cmd
  pattern : Cmd
deriving DecidableEq, Repr

/-- The opcode map, transcribed from 30_encoding.md section 3 (it is not read by `decode`, which
follows R46; that the two agree is a statement). -/
def opcodeMap : List OpcodeRow :=
  [⟨.alawEnc, 0xFFFF0000#32, 0x00000000#32⟩,
   ⟨.alawDec, 0xFFFF0000#32, 0x00010000#32⟩,
   ⟨.ulawEnc, 0xFFFF0000#32, 0x00020000#32⟩,
   ⟨.ulawDec, 0xFFFF0000#32, 0x00030000#32⟩,
   ⟨.segSearch, 0xFFFF0000#32, 0x00040000#32⟩]

/-- The word matches the row: it agrees with the row's pattern on the bits of the row's mask. -/
def OpcodeRow.accepts (r : OpcodeRow) (w : Cmd) : Bool := decide (w &&& r.mask = r.pattern)

/-- The command word of `nbits` given bits (bits above them zero, at most 32; log 14). -/
def tableWord (nbits w : Nat) : Cmd := BitVec.ofNat 32 (w % 2 ^ nbits)

/-- What the decoder reads from an instruction numbered as the opcode table numbers it: the table's bit
numbering is that of R7 and R39, one 32-bit word (log 14). -/
def decodeTableWord (nbits w : Nat) : Option Instr :=
  if nbits ≤ 32 then
    match decode (tableWord nbits w) with
    | .instr i => some i
    | .rsvdNonzero => none
    | .opReserved => none
  else none

end Sys2Proof
end

