-- ==== Sys2Proof/Config.lean ====
section
/-! DEFINITION. What a build of the core fixes, and the values the spec leaves free (00_scope.md R6). -/

namespace Sys2Proof

/-- `MULAW_DECODE_RULE` (R6, D10, C1): which of the two μ-law decoder formulas a build computes. -/
inductive MulawDecodeRule where
  /-- The inverse of the encoder, rule R79 (the spec's default). -/
  | g711
  /-- The source's §4.5 word for word, rule R80. -/
  | docLiteral
deriving DecidableEq, Repr

/-- The build parameters of one instance: fixed when it is built, changed by no transaction and no
reset (10_state.md R21). The other fixed parameters of R6 are the widths of `Word.lean` and the table
`Machine.boundary`. `LATENCY` and `HOST_LAYOUT` have no field, since no rule depends on them (log 12). -/
structure Config where
  mulawDecodeRule : MulawDecodeRule
deriving DecidableEq, Repr

/-- The spec's default build: `MULAW_DECODE_RULE = G711` (R6; log 2). -/
def Config.standard : Config where
  mulawDecodeRule := .g711

/-- `powerUpResult draw n`: what RESULT holds after an instance's power-up number `n` that takes the
free draw `draw`, before the next reset: unspecified, so a free value with no body
(70_reset_and_hazards.md R112, 60_exceptions.md R107). DESIGN CHOICE: the spec gives no function, and
this one makes power-ups with equal draw and equal number take equal values; every power-up names its own
draw, so two instances, or two runs, need not share one (log 5). -/
opaque Config.powerUpResult : Nat → Nat → Half

/-- `powerUpIll draw n`: what STATUS.ILL holds after such a power-up: a free value in the same form and
with the same DESIGN CHOICE (R112, R107; log 5). -/
opaque Config.powerUpIll : Nat → Nat → Bool

/-- `N_INSTANCES` (R6, R106, D18): OPEN, so a free value (log 11). -/
opaque Config.nInstances : Nat

end Sys2Proof
end

