-- ==== Sys2Proof/Machine/State.lean ====
section
/-! DEFINITION. The state of one core instance (10_state.md R13) and of the host that drives it
(60_exceptions.md R108, R109), the reset state, and the reasons a step can stop. -/

namespace Sys2Proof.Machine

/-- The two companding laws. -/
inductive Law where
  | alaw
  | mulaw
deriving DecidableEq, Repr

/-- The four batch wrappers (44_batch_host.md R88): `encodeALaw` is `encode alaw`, `decodeALaw` is
`decode alaw`, `encodeMuLaw` is `encode mulaw`, `decodeMuLaw` is `decode mulaw`. -/
inductive Wrapper where
  | encode (law : Law)
  | decode (law : Law)
deriving DecidableEq, Repr

/-- How a host widens a code byte to the 16-bit operand of a decoder (R94): `zext_16(c)` as in R88, or
`sext_16(c)` from a signed 8-bit container. -/
inductive CodeContainer where
  | unsignedByte
  | signedByte
deriving DecidableEq, Repr

/-- One element of a host array: a sample pattern, a code byte (00_scope.md R11), or the pattern
`sext_16(c)` of a code's signed byte container (R9, 30_encoding.md R47). -/
inductive Element where
  | sample (p : Half)
  | code (c : Byte)
  | signedCode (p : Half)
deriving DecidableEq, Repr

/-- A host array: element-indexed, of samples, of code bytes, or of the signed byte containers of codes,
each as its 16-bit pattern (R11, 20_memory.md R27, R94; log 7). -/
inductive HostArray where
  | samples (xs : List Half)
  | codes (cs : List Byte)
  | signedCodes (ps : List Half)
deriving DecidableEq, Repr

/-- One action of the host or its environment (60_exceptions.md R108; log 1). Host arrays are named by
their index in `State.arrays`. -/
inductive HostAct where
  /-- Issue a command word: one transaction (R12). -/
  | issue (w : Cmd)
  /-- Read RESULT (R22). -/
  | readResult
  /-- Read STATUS (R22). -/
  | readStatus
  /-- Assert reset; `during` are the command words issued while it is asserted or coinciding with it,
  none of which is performed (70_reset_and_hazards.md R111, R113; log 4). -/
  | reset (during : List Cmd)
  /-- The power was lost and came back (60_exceptions.md R107, 70_reset_and_hazards.md R112); `draw` names
  the free values that RESULT and ILL take, any number at all (log 5). -/
  | powerCycle (draw : Nat)
  /-- Run a batch wrapper on the arrays `inp` and `out` with count `n` (44_batch_host.md R88). -/
  | batch (wr : Wrapper) (cc : CodeContainer) (inp out : Nat) (n : Int)
  /-- The loop of a batch wrapper with the iterations still to run, in this order (R88, R92; log 9). -/
  | iterate (wr : Wrapper) (cc : CodeContainer) (inp out : Nat) (todo : List Nat)
  /-- The second half of an iteration: read RESULT and store it as element `i` of `out` (R88). -/
  | store (wr : Wrapper) (out i : Nat)
deriving DecidableEq, Repr

/-- A value the host has read from the core (R109). -/
inductive HostRead where
  | result (v : Half)
  | status (v : Half)
deriving DecidableEq, Repr

/-- One core instance with its build parameters and its host. -/
structure State where
  /-- RESULT (10_state.md R15). -/
  result : Half
  /-- STATUS.ILL, the one bit of STATUS that holds state (R13, R16, R17; log 17). -/
  ill : Bool
  /-- The build parameters (R21; log 2). -/
  config : Config
  /-- What the host does next, oldest first (R108, R109; log 1). The model's own field. -/
  inputs : List HostAct
  /-- What the host has read, oldest first (R109; log 6). The model's own field. -/
  reads : List HostRead
  /-- The host's arrays (R11; log 7). The model's own field. -/
  arrays : List HostArray
  /-- How many power-ups this instance has had; it numbers its free values (log 5). The model's own
  field. -/
  powerUps : Nat
deriving DecidableEq, Repr

/-- The instance after its first reset (70_reset_and_hazards.md R112), with a host that has done
nothing yet and the spec's default build (log 1, log 2). -/
def State.reset : State where
  result := 0x0000#16
  ill := false
  config := Config.standard
  inputs := []
  reads := []
  arrays := []
  powerUps := 0

/-- Why a step stops. All three are faults of the host's program; the core itself never faults, since
IllegalCommand is taken as the effect 60_exceptions.md R96 gives it (log 3). -/
inductive Fault where
  /-- Raised by a batch loop whose precondition does not hold: an array shorter than the count, or one
  array for input and output (44_batch_host.md R89); and by a split of one whose parts are not a split of
  the index range over instances of the platform (R92; log 19). Safe: the run has no value. -/
  | hostPrecondition
  /-- Raised by a batch loop over an array that is absent or has the other element type (R94; log 8).
  Safe: the run has no value. -/
  | hostArrayKind
  /-- Raised by `Platform.step` and `SharedHost.step` for an instance number the platform does not have
  (R106; log 11). Safe. -/
  | noInstance
deriving DecidableEq, Repr

/-- Why a step has no meaning. -/
inductive Refusal where
  /-- Raised by an arm of `exec` whose instruction has no meaning yet; no arm of this model uses it.
  Safe. -/
  | notModelled (mnemonic : String)
deriving DecidableEq, Repr

end Sys2Proof.Machine
end

