-- ==== Sys2Proof/Machine/Flags.lean ====
section
/-! DEFINITION. STATUS and its one bit ILL (10_state.md R16, R17, R20). The core has no other flag. -/

namespace Sys2Proof.Machine

/-- STATUS as the host reads it: bit 0 is ILL, bits 15:1 are hard-wired 0 (R16; log 17). -/
def State.status (s : State) : Half := 0#15 ++ BitVec.ofBool s.ill

/-- `STATUS.ILL <- 1` (R17). There is no operation that writes any other bit of STATUS, and none but
reset that clears ILL. -/
def State.setIll (s : State) : State := { s with ill := true }

end Sys2Proof.Machine
end

