-- ==== Sys2Proof/Machine/Ops.lean ====
section
/-! DEFINITION. The named operations on the core's two registers and on the host's side of the
interface (10_state.md R22): every change of the state goes through one of these. -/

namespace Sys2Proof.Machine

/-- `RESULT <- p` (00_scope.md R10). -/
def State.writeResult (s : State) (p : Half) : State := { s with result := p }

/-- `raise IllegalCommand(w)`: taking the one exception of the core (60_exceptions.md R96, R101). ILL is
set, RESULT and everything else is unchanged and the transaction ends. The faulting word is not
recorded (R97), there is no handler to go to (R101) and no return (R102). -/
def State.raiseIllegalCommand (s : State) : State := s.setIll

/-- Reset of the core (70_reset_and_hazards.md R111): RESULT and STATUS become 0; the build parameter
and everything of the host's stay. -/
def State.resetCore (s : State) : State := { s with result := 0x0000#16, ill := false }

/-- A loss of power and the power-up after it: RESULT and ILL take free values (60_exceptions.md R107,
70_reset_and_hazards.md R112). DESIGN CHOICE, log 5: the values depend on the draw that the action names
and on the number of the power-up, and on nothing else of the state; power-ups that agree in both, in
whatever instance or run, take equal values, and nothing is known of power-ups that differ.
What the host does before the next reset is performed as ever (log 20). -/
def State.powerCycle (s : State) (draw : Nat) : State :=
  { s with
    result := Config.powerUpResult draw s.powerUps
    ill := Config.powerUpIll draw s.powerUps
    powerUps := s.powerUps + 1 }

/-- The host gains one value it has read (R109). -/
def State.logRead (s : State) (v : HostRead) : State := { s with reads := s.reads ++ [v] }

/-- `readRESULT()`: the host reads RESULT whole; nothing of the core changes (R22, 20_memory.md R31). -/
def State.readResult (s : State) : State := s.logRead (.result s.result)

/-- `readSTATUS()`: the host reads STATUS whole; nothing of the core changes (R22, R31). -/
def State.readStatus (s : State) : State := s.logRead (.status s.status)

/-- The same instance with another list of pending host actions. -/
def State.withInputs (s : State) (as : List HostAct) : State := { s with inputs := as }

/-- The same instance with one more action to be done before all others. -/
def State.push (s : State) (a : HostAct) : State := s.withInputs (a :: s.inputs)

/-- The same instance with other host arrays. -/
def State.withArrays (s : State) (as : List HostArray) : State := { s with arrays := as }

/-- `len(buf)` (00_scope.md R11). -/
def HostArray.len : HostArray → Nat
  | .samples xs => xs.length
  | .codes cs => cs.length
  | .signedCodes ps => ps.length

/-- `MemRead(buf, i)` (R11); none outside the array. -/
def HostArray.memRead (b : HostArray) (i : Nat) : Option Element :=
  match b with
  | .samples xs => xs[i]?.map Element.sample
  | .codes cs => cs[i]?.map Element.code
  | .signedCodes ps => ps[i]?.map Element.signedCode

/-- `MemWrite(buf, i, v)` (R11); none outside the array or for a value of the other type. It neither
allocates nor grows (44_batch_host.md R91). -/
def HostArray.memWrite (b : HostArray) (i : Nat) (v : Element) : Option HostArray :=
  match b, v with
  | .samples xs, .sample p => if i < xs.length then some (.samples (xs.set i p)) else none
  | .codes cs, .code c => if i < cs.length then some (.codes (cs.set i c)) else none
  | .signedCodes ps, .signedCode p => if i < ps.length then some (.signedCodes (ps.set i p)) else none
  | .samples _, .code _ => none
  | .samples _, .signedCode _ => none
  | .codes _, .sample _ => none
  | .codes _, .signedCode _ => none
  | .signedCodes _, .sample _ => none
  | .signedCodes _, .code _ => none

end Sys2Proof.Machine
end

