-- ==== Sys2Proof/Machine/Segment.lean ====
section
/-! DEFINITION. The segment search and the command `SEG_SEARCH` (41_segment_search.md R56, R57). -/

namespace Sys2Proof.Machine

/-- `BOUNDARY[0..7]` (R56, 00_scope.md R6). -/
def boundary : List Nat := [0xFF, 0x1FF, 0x3FF, 0x7FF, 0xFFF, 0x1FFF, 0x3FFF, 0x7FFF]

/-- The linear scan of R56: how many boundaries `m` exceeds before the first it does not, from left to
right, `<=` and first match. -/
def scan (m : Nat) : List Nat → Nat
  | [] => 0
  | b :: bs => if m ≤ b then 0 else scan m bs + 1

/-- `seg(m)` (R56): the index of the first boundary that `m` does not exceed, or the sentinel 8. -/
def seg (m : Nat) : Nat := scan m boundary

/-- `SEG_SEARCH` (R57): `RESULT <- zext_16(seg(m))`. -/
def execSegSearch (m : Nat) (s : State) : Host.Outcome State Fault Refusal :=
  .next (s.writeResult (zext16 (seg m)))

end Sys2Proof.Machine
end

