-- ==== Sys2Proof/Machine/Alaw.lean ====
section
/-! DEFINITION. The A-law encoder and decoder and their commands (42_alaw.md R62, R63, R67, R68). -/

namespace Sys2Proof.Machine

/-- Step 1 of R62: the mask that carries the sign. -/
def alawMask (x : Int) : Nat := if 0 ≤ x then 0xD5 else 0x55

/-- Step 1 of R62: the magnitude, `x` or `-x - 1`, with the source's clamp, which is never taken
(R64, C2). -/
def alawMagnitude (x : Int) : Nat :=
  if 0 ≤ x then x.toNat
  else if -x - 1 < 0 then 32767
  else (-x - 1).toNat

/-- Steps 2 to 4 of R62 before the mask: the 7-bit value `{SEG, Q}` of a magnitude, `0x7F` where the
search answers its sentinel (never inside the encoder, R64). -/
def alawBody (m : Nat) : Nat :=
  let s := seg m
  if 8 ≤ s then 0x7F
  else
    let q := if s < 2 then (m >>> 4) &&& 0xF else (m >>> (s + 3)) &&& 0xF
    (s <<< 4) ||| q

/-- `alaw_enc(x)` (R62). -/
def alawEncode (x : Int) : Nat := alawBody (alawMagnitude x) ^^^ alawMask x

/-- Step 3 of R67: the decoded magnitude of segment `s` and nibble `q`. -/
def alawDecodedMagnitude (s q : Nat) : Nat :=
  let t := q <<< 4
  if s = 0 then t + 8
  else if s = 1 then t + 0x108
  else (t + 0x108) <<< (s - 1)

/-- `alaw_dec(c)` (R67). -/
def alawDecode (c : Nat) : Int :=
  let a := c ^^^ 0x55
  let q := a &&& 0xF
  let s := (a &&& 0x70) >>> 4
  let t := alawDecodedMagnitude s q
  if c &&& 0x80 ≠ 0 then (t : Int) else -(t : Int)

/-- `ALAW_ENC` (R63): `RESULT <- zext_16(alaw_enc(x))`. -/
def execAlawEnc (x : Int) (s : State) : Host.Outcome State Fault Refusal :=
  .next (s.writeResult (zext16 (alawEncode x)))

/-- `ALAW_DEC` (R68): `RESULT <- bits16(alaw_dec(c))`; the byte `DATA[15:8]` is ignored (R44). -/
def execAlawDec (_hi c : Nat) (s : State) : Host.Outcome State Fault Refusal :=
  .next (s.writeResult (bits16 (alawDecode c)))

end Sys2Proof.Machine
end

