-- ==== Sys2Proof/Machine/Mulaw.lean ====
section
/-! DEFINITION. The μ-law encoder, the two μ-law decoder rules and their commands (43_mulaw.md R74, R75,
R79, R80, R81). -/

namespace Sys2Proof.Machine

/-- Step 1 of R74: the mask that carries the sign. -/
def ulawMask (x : Int) : Nat := if x < 0 then 0x7F else 0xFF

/-- Step 1 of R74: the magnitude, negated exactly (-32768 gives 32768, D9). -/
def ulawMagnitude (x : Int) : Nat := if x < 0 then (-x).toNat else x.toNat

/-- Step 2 of R74: the bias 0x84 and the clamp at 32767, on a magnitude. -/
def ulawBiased (m : Nat) : Nat :=
  let b := m + 0x84
  if 32767 < b then 32767 else b

/-- Steps 3 to 5 of R74 before the mask: the 7-bit value `{SEG, Q}` of a biased magnitude, `0x7F` where
the search answers its sentinel (never after the clamp, R76). -/
def ulawBody (b : Nat) : Nat :=
  let s := seg b
  if 8 ≤ s then 0x7F else (s <<< 4) ||| ((b >>> (s + 3)) &&& 0xF)

/-- `ulaw_enc(x)` (R74). -/
def ulawEncode (x : Int) : Nat := ulawBody (ulawBiased (ulawMagnitude x)) ^^^ ulawMask x

/-- `ulaw_dec_g711(c)` (R79), the rule `G711`. -/
def ulawDecodeG711 (c : Nat) : Int :=
  let u := not8 c
  let q := u &&& 0xF
  let s := (u &&& 0x70) >>> 4
  let t := ((q <<< 3) + 0x84) <<< s
  if u &&& 0x80 ≠ 0 then 0x84 - (t : Int) else (t : Int) - 0x84

/-- `ulaw_dec_doc(c)` (R80), the rule `DOC_LITERAL`. -/
def ulawDecodeDoc (c : Nat) : Int :=
  let u := not8 c
  let t0 := ((u &&& 0xF) <<< 3) + 0x84
  let s := (u &&& 0x70) >>> 4
  let t := if s ≠ 0 then (t0 + 0x100) <<< (s - 1) else t0
  if u &&& 0x80 ≠ 0 then -(t : Int) else (t : Int)

/-- The decoder that `MULAW_DECODE_RULE` selects (R81, R21). -/
def ulawDecode (r : MulawDecodeRule) (c : Nat) : Int :=
  match r with
  | .g711 => ulawDecodeG711 c
  | .docLiteral => ulawDecodeDoc c

/-- `ULAW_ENC` (R75): `RESULT <- zext_16(ulaw_enc(x))`. -/
def execUlawEnc (x : Int) (s : State) : Host.Outcome State Fault Refusal :=
  .next (s.writeResult (zext16 (ulawEncode x)))

/-- `ULAW_DEC` (R81): `RESULT <- bits16(v)` with the decoder rule of the build; the byte `DATA[15:8]`
is ignored (R44). -/
def execUlawDec (_hi c : Nat) (s : State) : Host.Outcome State Fault Refusal :=
  .next (s.writeResult (bits16 (ulawDecode s.config.mulawDecodeRule c)))

end Sys2Proof.Machine
end

