-- ==== Sys2Proof/Machine/Dispatch.lean ====
section
/-! DEFINITION. One arm per command: what `exec` does with it. -/

namespace Sys2Proof.Machine

def exec (i : Instr) (s : State) : Host.Outcome State Fault Refusal :=
  match i with
  | .alawEnc x => Sys2Proof.Machine.execAlawEnc x s
  | .alawDec hi c => Sys2Proof.Machine.execAlawDec hi c s
  | .ulawEnc x => Sys2Proof.Machine.execUlawEnc x s
  | .ulawDec hi c => Sys2Proof.Machine.execUlawDec hi c s
  | .segSearch m => Sys2Proof.Machine.execSegSearch m s

end Sys2Proof.Machine
end

