-- ==== Sys2Proof/Machine/HostPort.lean ====
section
/-! DEFINITION. What the core and the host do on each host action (00_scope.md R12, 60_exceptions.md
R108, 44_batch_host.md R88). The state an operation here gets has the action already taken off its
`inputs`. -/

namespace Sys2Proof.Machine

/-- One transaction (R12): the decode step, then the command's rule or IllegalCommand (R46). It is the
same before the first reset after a power-up (DESIGN CHOICE, log 20). -/
def transact (w : Cmd) (s : State) : Host.Outcome State Fault Refusal :=
  match decode w with
  | .instr i => exec i s
  | .rsvdNonzero => .next s.raiseIllegalCommand
  | .opReserved => .next s.raiseIllegalCommand

/-- The `OPC` a batch wrapper issues (R88). -/
def Wrapper.op : Wrapper → BitVec 3
  | .encode .alaw => 0b000#3
  | .decode .alaw => 0b001#3
  | .encode .mulaw => 0b010#3
  | .decode .mulaw => 0b011#3

/-- How a code byte becomes the operand of a decoder: `zext_16(c)` (R88) or `sext_16(c)` (R94). -/
def CodeContainer.widen (cc : CodeContainer) (c : Byte) : Half :=
  match cc with
  | .unsignedByte => zext16 c.toNat
  | .signedByte => sext16 c

/-- `conv_in` of R88: the operand field from an input element, the pattern of a sample for the encoders,
the widened code for the decoders, whether the element is the code byte or its signed container, whose
low 8 bits it is (R9, R94). None for an element of another type. -/
def Wrapper.convIn (wr : Wrapper) (cc : CodeContainer) (e : Element) : Option Half :=
  match wr, e with
  | .encode _, .sample p => some p
  | .decode _, .code c => some (cc.widen c)
  | .decode _, .signedCode p => some (cc.widen (codeField p))
  | .encode _, .code _ => none
  | .encode _, .signedCode _ => none
  | .decode _, .sample _ => none

/-- `conv_out` of R88 into the output array `b`: `low8` of RESULT for the encoders into a byte array,
`sext_16(RESULT[7:0])` into an array of signed byte containers (R94, 30_encoding.md R47), the sample
RESULT denotes for the decoders. None for an array of another type. -/
def Wrapper.convOut (wr : Wrapper) (b : HostArray) (r : Half) : Option Element :=
  match wr, b with
  | .encode _, .codes _ => some (.code (codeField r))
  | .encode _, .signedCodes _ => some (.signedCode (sext16 (codeField r)))
  | .decode _, .samples _ => some (.sample r)
  | .encode _, .samples _ => none
  | .decode _, .codes _ => none
  | .decode _, .signedCodes _ => none

/-- The array has an element type of the wrapper's input: samples for the encoders, codes in either
container for the decoders (R94). -/
def Wrapper.inKind (wr : Wrapper) (b : HostArray) : Bool :=
  match wr, b with
  | .encode _, .samples _ => true
  | .decode _, .codes _ => true
  | .decode _, .signedCodes _ => true
  | .encode _, .codes _ => false
  | .encode _, .signedCodes _ => false
  | .decode _, .samples _ => false

/-- The array has an element type of the wrapper's output: codes in either container for the encoders,
samples for the decoders (R94). -/
def Wrapper.outKind (wr : Wrapper) (b : HostArray) : Bool :=
  match wr, b with
  | .encode _, .codes _ => true
  | .encode _, .signedCodes _ => true
  | .decode _, .samples _ => true
  | .encode _, .samples _ => false
  | .decode _, .codes _ => false
  | .decode _, .signedCodes _ => false

/-- The host precondition of a batch call (R89): the fault of a call that violates it. Sharing is checked
first, then the element types, then the lengths (log 8). -/
def checkBatch (wr : Wrapper) (inp out : Nat) (n : Int) (arrays : List HostArray) : Option Fault :=
  if inp = out then some .hostPrecondition
  else
    match arrays[inp]?, arrays[out]? with
    | some a, some b =>
      if wr.inKind a && wr.outKind b then
        if n ≤ a.len ∧ n ≤ b.len then none else some .hostPrecondition
      else some .hostArrayKind
    | some _, none => some .hostArrayKind
    | none, some _ => some .hostArrayKind
    | none, none => some .hostArrayKind

/-- The call of a batch wrapper: the host precondition (R89), then the loop over `0 .. n-1` (R88), which
is empty for `n <= 0` (R90). A violated precondition is a host fault, never a value. -/
def startBatch (wr : Wrapper) (cc : CodeContainer) (inp out : Nat) (n : Int) (s : State) :
    Host.Outcome State Fault Refusal :=
  match checkBatch wr inp out n s.arrays with
  | some r => .fault r
  | none => .next (s.push (.iterate wr cc inp out (List.range n.toNat)))

/-- The loop of a batch wrapper (R88): one iteration reads the next input element, issues its command
and stores the result; the rest of the loop follows (log 9). -/
def iterateBatch (wr : Wrapper) (cc : CodeContainer) (inp out : Nat) (todo : List Nat) (s : State) :
    Host.Outcome State Fault Refusal :=
  match todo with
  | [] => .next s
  | i :: is =>
    match s.arrays[inp]? with
    | none => .fault .hostArrayKind
    | some a =>
      match a.memRead i with
      | none => .fault .hostPrecondition
      | some e =>
        match wr.convIn cc e with
        | none => .fault .hostArrayKind
        | some d =>
          .next (((s.push (.iterate wr cc inp out is)).push (.store wr out i)).push
            (.issue (commandWord wr.op d)))

/-- `MemWrite(out, i, conv_out(readRESULT()))` (R88). -/
def storeResult (wr : Wrapper) (out i : Nat) (s : State) : Host.Outcome State Fault Refusal :=
  match s.arrays[out]? with
  | none => .fault .hostArrayKind
  | some b =>
    match wr.convOut b s.result with
    | none => .fault .hostArrayKind
    | some v =>
      match b.memWrite i v with
      | none => .fault .hostPrecondition
      | some b' => .next (s.readResult.withArrays (s.arrays.set out b'))

/-- One action of the host or its environment (60_exceptions.md R108). DESIGN CHOICE, log 20: between a
power-up and the next reset every action is performed by the same rules as after a reset, so a command
there leaves its own RESULT, or ILL = 1, although 70_reset_and_hazards.md R115 promises the rules only
after one reset and R112 leaves RESULT and STATUS unspecified until then. -/
def perform (a : HostAct) (s : State) : Host.Outcome State Fault Refusal :=
  match a with
  | .issue w => transact w s
  | .readResult => .next s.readResult
  | .readStatus => .next s.readStatus
  | .reset _ => .next s.resetCore
  | .powerCycle draw => .next (s.powerCycle draw)
  | .batch wr cc inp out n => startBatch wr cc inp out n s
  | .iterate wr cc inp out todo => iterateBatch wr cc inp out todo s
  | .store wr out i => storeResult wr out i s

/-- The next thing that happens: the oldest pending host action. A host that does nothing leaves the
state unchanged (R108). -/
def advance (s : State) : Host.Outcome State Fault Refusal :=
  match s.inputs with
  | [] => .next s
  | a :: as => perform a (s.withInputs as)

end Sys2Proof.Machine
end

