-- ==== Sys2Proof/Machine/Step.lean ====
section
/-! DEFINITION. One step of the machine, and how a command word is put where the next step takes it. -/

namespace Sys2Proof.Machine

/-- One step: one host action, performed whole (00_scope.md R12, 20_memory.md R34). The core fetches
nothing itself (10_state.md R14). -/
def step (s : State) : Host.Outcome State Fault Refusal := advance s

/-- The same state with the command word `w` issued next (log 13): the core has no program counter and no
memory to fetch from, so the next command is the one the host issues (R14, R18). -/
def State.withFetchWord (s : State) (nbits w : Nat) : State := s.push (.issue (tableWord nbits w))

end Sys2Proof.Machine
end

