-- ==== Sys2Proof/Machine/Assembler.lean ====
section
/-! DEFINITION. The assembly syntax and the disassembler (30_encoding.md R52, R53; log 15, log 18). Text
is a list of characters, so that it can be evaluated by structural recursion. -/

namespace Sys2Proof.Machine

/-- A numeric literal: signed decimal, or hexadecimal with `0x` (R52). -/
inductive Literal where
  | dec (v : Int)
  | hex (v : Nat)
deriving DecidableEq, Repr

/-- One line of assembly: a mnemonic and its operand, or the directive `.word` (R52, R53). -/
inductive AsmLine where
  | cmd (mn : Mnemonic) (operand : Literal)
  | word (v : Nat)
deriving DecidableEq, Repr

/-- A sample operand: decimal -32768 to 32767, or the 16-bit pattern in hexadecimal (R52). -/
def assembleSample : Literal → Option Int
  | .dec v => if -32768 ≤ v ∧ v ≤ 32767 then some v else none
  | .hex v => if v ≤ 0xFFFF then some (s16 (BitVec.ofNat 16 v)) else none

/-- An unsigned operand from 0 to `top` (R52). -/
def assembleUnsigned (top : Nat) : Literal → Option Nat
  | .dec v => if 0 ≤ v ∧ v ≤ top then some v.toNat else none
  | .hex v => if v ≤ top then some v else none

/-- The command of an assembly line; none is the assembly error of R52. -/
def assembleInstr (mn : Mnemonic) (l : Literal) : Option Instr :=
  match mn with
  | .alawEnc => (assembleSample l).map Instr.alawEnc
  | .alawDec => (assembleUnsigned 255 l).map (Instr.alawDec 0)
  | .ulawEnc => (assembleSample l).map Instr.ulawEnc
  | .ulawDec => (assembleUnsigned 255 l).map (Instr.ulawDec 0)
  | .segSearch => (assembleUnsigned 65535 l).map Instr.segSearch

/-- The word a line assembles to: `{13'b0, OP, DATA}` of its command (R52), or the literal 32-bit word of
`.word` (R53). -/
def assemble : AsmLine → Option Cmd
  | .cmd mn l => (assembleInstr mn l).map encode
  | .word v => if v < 2 ^ 32 then some (BitVec.ofNat 32 v) else none

/-- The line a disassembler prints for a word (R53): `.word` for a word that matches no row and for a
decoder word with `DATA[15:8] != 0`. -/
def disassemble (w : Cmd) : AsmLine :=
  match decode w with
  | .instr (.alawEnc x) => .cmd .alawEnc (.dec x)
  | .instr (.alawDec hi c) => if hi = 0 then .cmd .alawDec (.hex c) else .word w.toNat
  | .instr (.ulawEnc x) => .cmd .ulawEnc (.dec x)
  | .instr (.ulawDec hi c) => if hi = 0 then .cmd .ulawDec (.hex c) else .word w.toNat
  | .instr (.segSearch m) => .cmd .segSearch (.hex m)
  | .rsvdNonzero => .word w.toNat
  | .opReserved => .word w.toNat

/-- The spelling of a mnemonic (R52). -/
def mnemonicText : Mnemonic → List Char
  | .alawEnc => ['A', 'L', 'A', 'W', '_', 'E', 'N', 'C']
  | .alawDec => ['A', 'L', 'A', 'W', '_', 'D', 'E', 'C']
  | .ulawEnc => ['U', 'L', 'A', 'W', '_', 'E', 'N', 'C']
  | .ulawDec => ['U', 'L', 'A', 'W', '_', 'D', 'E', 'C']
  | .segSearch => ['S', 'E', 'G', '_', 'S', 'E', 'A', 'R', 'C', 'H']

/-- The directive's spelling (R53). -/
def wordDirective : List Char := ['.', 'w', 'o', 'r', 'd']

/-- The mnemonic a token spells, in either case of letters (R52). -/
def parseMnemonic (t : List Char) : Option Mnemonic :=
  [Mnemonic.alawEnc, .alawDec, .ulawEnc, .ulawDec, .segSearch].find?
    (fun mn => decide (t.map Char.toUpper = mnemonicText mn))

/-- The value of one digit: 0 to 9, then A to F in either case. -/
def digitValue (ch : Char) : Option Nat :=
  let n := ch.toNat
  if 48 ≤ n ∧ n ≤ 57 then some (n - 48)
  else if 65 ≤ n ∧ n ≤ 70 then some (n - 55)
  else if 97 ≤ n ∧ n ≤ 102 then some (n - 87)
  else none

/-- Read the digits of a number in the given base, most significant first, onto `acc`. -/
def parseDigits (base : Nat) : List Char → Nat → Option Nat
  | [], acc => some acc
  | ch :: cs, acc =>
    match digitValue ch with
    | none => none
    | some d => if d < base then parseDigits base cs (acc * base + d) else none

/-- A number of at least one digit in the given base. -/
def parseNumber (base : Nat) (cs : List Char) : Option Nat :=
  if cs = [] then none else parseDigits base cs 0

/-- A numeric literal (R52; log 15). -/
def parseLiteral : List Char → Option Literal
  | '0' :: 'x' :: cs => (parseNumber 16 cs).map Literal.hex
  | '-' :: cs => (parseNumber 10 cs).map (fun n => Literal.dec (-(n : Int)))
  | cs => (parseNumber 10 cs).map (fun n => Literal.dec (n : Int))

/-- The tokens of a line: the pieces between spaces, read from the right. -/
def tokens (cs : List Char) : List (List Char) :=
  ((cs.foldr (fun ch acc =>
      if ch = ' ' then ([], if acc.1 = [] then acc.2 else acc.1 :: acc.2)
      else (ch :: acc.1, acc.2)) (([] : List Char), ([] : List (List Char)))) |> fun p =>
    if p.1 = [] then p.2 else p.1 :: p.2)

/-- One line: `MNEMONIC operand`, or `.word <hex32>` (R52, R53). -/
def parseLine (cs : List Char) : Option AsmLine :=
  match tokens cs with
  | [t, l] =>
    if t = wordDirective then
      match parseLiteral l with
      | some (.hex v) => some (.word v)
      | some (.dec _) => none
      | none => none
    else
      match parseMnemonic t, parseLiteral l with
      | some mn, some lit => some (.cmd mn lit)
      | some _, none => none
      | none, some _ => none
      | none, none => none
  | _ => none

/-- Assemble one line of text. -/
def assembleText (cs : List Char) : Option Cmd := (parseLine cs).bind assemble

/-- The upper-case hexadecimal digit of a value below 16. -/
def hexDigit (n : Nat) : Char :=
  ['0', '1', '2', '3', '4', '5', '6', '7', '8', '9', 'A', 'B', 'C', 'D', 'E', 'F'].getD n '0'

/-- `0x` and the given number of hexadecimal digits, most significant first. -/
def hexText (width n : Nat) : List Char :=
  '0' :: 'x' :: ((List.range width).reverse.map (fun k => hexDigit (n / 16 ^ k % 16)))

/-- A literal as the disassembler prints it. -/
def Literal.text (width : Nat) : Literal → List Char
  | .dec v => if v < 0 then '-' :: Nat.toDigits 10 v.natAbs else Nat.toDigits 10 v.natAbs
  | .hex n => hexText width n

/-- How many hexadecimal digits an operand of the mnemonic has: two for a code, four for a sample or a
magnitude (R52). -/
def hexWidth : Mnemonic → Nat
  | .alawEnc => 4
  | .alawDec => 2
  | .ulawEnc => 4
  | .ulawDec => 2
  | .segSearch => 4

/-- The text of a line: `MNEMONIC operand`, or `.word 0xHHHHHHHH` (R53). -/
def AsmLine.text : AsmLine → List Char
  | .cmd mn l => mnemonicText mn ++ ' ' :: l.text (hexWidth mn)
  | .word v => wordDirective ++ ' ' :: hexText 8 v

end Sys2Proof.Machine
end

