-- ==== Sys2Proof/Machine/Platform.lean ====
section
/-! DEFINITION. Several independent instances side by side (10_state.md R25, 60_exceptions.md R106), and
one host that drives them on arrays it shares between them (44_batch_host.md R92). -/

namespace Sys2Proof.Machine

/-- The instances of a platform, each with its own RESULT, STATUS, build and host. -/
abbrev Platform := List State

/-- Every instance after its own reset, `N_INSTANCES` of them (R106; log 11). -/
def Platform.reset : Platform := List.replicate Config.nInstances State.reset

/-- One step of instance `k` with its own host; which instance steps next is the caller's choice (R106;
log 11). -/
def Platform.step (k : Nat) (p : Platform) : Host.Outcome Platform Fault Refusal :=
  match p[k]? with
  | none => .fault .noInstance
  | some s =>
    match Sys2Proof.Machine.step s with
    | .next s' => .next (p.set k s')
    | .fault r => .fault r
    | .refused r => .refused r

/-- A host that drives several instances on arrays of its own: a host action performed on any of them
reads and writes these arrays, while RESULT, STATUS, build and pending actions stay per instance (R25,
R92; log 19). -/
structure SharedHost where
  instances : Platform
  arrays : List HostArray
deriving DecidableEq, Repr

/-- One step of instance `k` on the shared arrays. The arrays that the instance's own State holds are not
used and not changed (log 19). -/
def SharedHost.step (k : Nat) (h : SharedHost) : Host.Outcome SharedHost Fault Refusal :=
  match h.instances[k]? with
  | none => .fault .noInstance
  | some s =>
    match Sys2Proof.Machine.step (s.withArrays h.arrays) with
    | .next t => .next { instances := h.instances.set k (t.withArrays s.arrays), arrays := t.arrays }
    | .fault r => .fault r
    | .refused r => .refused r

/-- The steps of the instances a schedule names, in its order: any interleaving is some schedule. -/
def SharedHost.run : List Nat → SharedHost → Host.Outcome SharedHost Fault Refusal
  | [], h => .next h
  | k :: ks, h =>
    match h.step k with
    | .next h' => SharedHost.run ks h'
    | .fault r => .fault r
    | .refused r => .refused r

/-- Give the first instances, in order, the parts of a split batch to run before anything else. -/
def assignParts (wr : Wrapper) (cc : CodeContainer) (inp out : Nat) :
    List (List Nat) → Platform → Platform
  | part :: parts, s :: ss =>
    s.push (.iterate wr cc inp out part) :: assignParts wr cc inp out parts ss
  | [], ss => ss
  | _ :: _, [] => []

/-- The call of a batch wrapper whose index range is split across instances (R92): the precondition of
R89 on the shared arrays, and `parts` together exactly the indices `0 .. n-1`, in any order and any
division, at most one part for each instance. Part `j` goes to instance `j`. -/
def SharedHost.startSplit (wr : Wrapper) (cc : CodeContainer) (inp out : Nat) (n : Int)
    (parts : List (List Nat)) (h : SharedHost) : Host.Outcome SharedHost Fault Refusal :=
  match checkBatch wr inp out n h.arrays with
  | some r => .fault r
  | none =>
    if parts.length ≤ h.instances.length && parts.flatten.isPerm (List.range n.toNat) then
      .next { h with instances := assignParts wr cc inp out parts h.instances }
    else .fault .hostPrecondition

/-- No instance has anything left to do. -/
def SharedHost.idle (h : SharedHost) : Bool := h.instances.all (fun s => s.inputs.isEmpty)

/-- The schedule names instances of the platform only. -/
def SharedHost.admits (h : SharedHost) (schedule : List Nat) : Prop :=
  ∀ k ∈ schedule, k < h.instances.length

/-- However the instances are scheduled, no step stops and the shared arrays are `final` once every
instance is idle; and some schedule makes every instance idle. -/
def SharedHost.AlwaysLeaves (h : SharedHost) (final : List HostArray) : Prop :=
  (∀ schedule, h.admits schedule →
    ∃ h', SharedHost.run schedule h = .next h' ∧ (h'.idle = true → h'.arrays = final)) ∧
  ∃ schedule h', h.admits schedule ∧ SharedHost.run schedule h = .next h' ∧ h'.idle = true

end Sys2Proof.Machine
end

