-- ==== Sys2Proof/Machine/Forms.lean ====
section
/-! DEFINITION. The other forms the spec gives for the same functions: closed forms, the comparator form
of the search, the encoders without their unreachable branches, and the error bounds. No meaning of an
instruction uses them; statements compare them with the functions the meanings use. -/

namespace Sys2Proof.Machine

/-- The closed form of `seg` (41_segment_search.md R58). -/
def segClosed (m : Nat) : Nat := if m ≤ 255 then 0 else Nat.log2 m - 7

/-- The eight comparators `k_i = (m <= BOUNDARY[i])` (R59). -/
def comparators (m : Nat) : List Bool := boundary.map (fun b => decide (m ≤ b))

/-- The leading-one detector over `m[15:8]` (R58, R59). -/
def segLeadingOne (m : Nat) : Nat := if m / 256 % 256 = 0 then 0 else 1 + Nat.log2 (m / 256 % 256)

/-- The A-law encoder without the clamp and without step 3 (42_alaw.md R64). -/
def alawEncodeReduced (x : Int) : Nat :=
  let m := if 0 ≤ x then x.toNat else (-x - 1).toNat
  let s := seg m
  let q := if s < 2 then (m >>> 4) &&& 0xF else (m >>> (s + 3)) &&& 0xF
  ((s <<< 4) ||| q) ^^^ alawMask x

/-- The μ-law encoder with step 4 but without the clamp (43_mulaw.md R76). -/
def ulawEncodeNoClamp (x : Int) : Nat := ulawBody (ulawMagnitude x + 0x84) ^^^ ulawMask x

/-- The μ-law encoder with the clamp but without step 4 (R76). -/
def ulawEncodeNoBranch (x : Int) : Nat :=
  let b := ulawBiased (ulawMagnitude x)
  let s := seg b
  ((s <<< 4) ||| ((b >>> (s + 3)) &&& 0xF)) ^^^ ulawMask x

/-- The nibble of the A-law bit form (42_alaw.md R62): `m[7:4]` in segment 0, else `m[s+6 : s+3]`. -/
def alawNibble (m : Nat) : Nat := if seg m = 0 then m / 16 % 16 else m / 2 ^ (seg m + 3) % 16

/-- The nibble of the μ-law bit form (43_mulaw.md R74): `b[s+6 : s+3]`. -/
def ulawNibble (b : Nat) : Nat := b / 2 ^ (seg b + 3) % 16

/-- The magnitude table of the A-law decoder (42_alaw.md R69). -/
def alawClosedMagnitude (s q : Nat) : Nat :=
  if s = 0 then 16 * q + 8
  else if s = 1 then 16 * q + 264
  else (2 * q + 33) * 2 ^ (s + 2)

/-- The magnitude table of the `G711` decoder (43_mulaw.md R82). -/
def g711ClosedMagnitude (s q : Nat) : Nat := (2 * q + 33) * 2 ^ (s + 2) - 132

/-- The magnitude table of the `DOC_LITERAL` decoder (R82). -/
def docClosedMagnitude (s q : Nat) : Nat := if s = 0 then 8 * q + 132 else (8 * q + 388) * 2 ^ (s - 1)

/-- `E_A(s)` (42_alaw.md R71). -/
def alawErrorBound (s : Nat) : Int := if s ≤ 1 then 8 else 2 ^ (s + 2)

/-- `E_U(s)` (43_mulaw.md R84). -/
def ulawErrorBound (s : Nat) : Int := 2 ^ (s + 2)

end Sys2Proof.Machine
end

