-- ==== Sys2Proof/Machine/Results.lean ====
section
/-! DEFINITION. The value each command, word, sample and code gives, as a function of its operand and the
build alone (10_state.md R19): the terms in which statements speak of results. -/

namespace Sys2Proof.Machine

/-- The pattern a command writes to RESULT, from its operand and the build parameter alone (10_state.md
R19, 30_encoding.md R47). -/
def resultValue (cfg : Config) : Instr → Half
  | .alawEnc x => zext16 (alawEncode x)
  | .alawDec _ c => bits16 (alawDecode c)
  | .ulawEnc x => zext16 (ulawEncode x)
  | .ulawDec _ c => bits16 (ulawDecode cfg.mulawDecodeRule c)
  | .segSearch m => zext16 (seg m)

/-- The pattern a word writes to RESULT; none for an illegal word, which leaves RESULT unchanged. -/
def wordResult (cfg : Config) (w : Cmd) : Option Half :=
  match decode w with
  | .instr i => some (resultValue cfg i)
  | .rsvdNonzero => none
  | .opReserved => none

/-- The code that the encoder of a law gives for a sample pattern (44_batch_host.md R88). -/
def encodeSample (law : Law) (p : Half) : Byte :=
  match law with
  | .alaw => BitVec.ofNat 8 (alawEncode (s16 p))
  | .mulaw => BitVec.ofNat 8 (ulawEncode (s16 p))

/-- The sample pattern that the decoder of a law gives for a code (R88). -/
def decodeCode (cfg : Config) (law : Law) (c : Byte) : Half :=
  match law with
  | .alaw => bits16 (alawDecode c.toNat)
  | .mulaw => bits16 (ulawDecode cfg.mulawDecodeRule c.toNat)

/-- The codes an array holds, in byte or in signed byte containers (44_batch_host.md R94); none for an
array of samples. -/
def HostArray.codeBytes : HostArray → Option (List Byte)
  | .codes cs => some cs
  | .signedCodes ps => some (ps.map codeField)
  | .samples _ => none

/-- The array with its first elements replaced by these codes, as bytes or as `sext_16(c)` by its element
type (R91, R94); an array of samples stays. -/
def HostArray.putCodes (b : HostArray) (codes : List Byte) : HostArray :=
  match b with
  | .codes cs => .codes (codes ++ cs.drop codes.length)
  | .signedCodes ps => .signedCodes (codes.map sext16 ++ ps.drop codes.length)
  | .samples xs => .samples xs

end Sys2Proof.Machine
end

