-- ==== Sys2Proof/Safety.lean ====
section
/-! DEFINITION. The terms that claims about a run use: what a run leaves in RESULT, a clean run
(60_exceptions.md R109), and the invariant of RESULT. -/

namespace Sys2Proof.Machine

/-- RESULT after the words, in order: the value of the last legal one, or what it was (R15). -/
def lastResult (cfg : Config) (before : Half) (ws : List Cmd) : Half :=
  ((ws.filterMap (wordResult cfg)).getLast?).getD before

/-- `k` steps of the machine. -/
def run (k : Nat) (s : State) : Host.Outcome State Fault Refusal := Sys2Proof.core.run k s

/-- The command word with the given fields (30_encoding.md R39), as a number. -/
def fieldsWord (rsvd op data : Nat) : Cmd := BitVec.ofNat 32 (rsvd * 2 ^ 19 + op * 2 ^ 16 + data)

/-- No IllegalCommand was raised since the last reset: the premise R109 asks of a claim. -/
def State.clean (s : State) : Bool := !s.ill

/-- The action is a loss of power. -/
def HostAct.losesPower : HostAct → Bool
  | .powerCycle _ => true
  | .issue _ => false
  | .readResult => false
  | .readStatus => false
  | .reset _ => false
  | .batch _ _ _ _ _ => false
  | .iterate _ _ _ _ _ => false
  | .store _ _ _ => false

/-- No loss of power is among the pending actions. -/
def State.powerStays (s : State) : Bool := s.inputs.all (fun a => !a.losesPower)

/-- The largest magnitude RESULT can denote under a decoder rule (42_alaw.md R68, 43_mulaw.md R81). -/
def resultLimit : MulawDecodeRule → Int
  | .g711 => 32256
  | .docLiteral => 32512

/-- The invariant of a run with the power on: RESULT denotes a value in the range of the operations,
which no 16-bit pattern outside it ever enters. -/
def State.Inv (s : State) : Prop :=
  s.powerStays = true ∧
  -(resultLimit s.config.mulawDecodeRule) ≤ s16 s.result ∧
  s16 s.result ≤ resultLimit s.config.mulawDecodeRule

end Sys2Proof.Machine
end

