-- ==== Sys2Proof/Certificates/Slice0/Obligations.lean ====
section
/-! DEFINITION. The statements for the provers, each from a numbered rule of spec/ or derived from the
sections its entry cites. `s.push a` is the state `s` with the host action `a` to be done next, so that
`step (s.push a)` performs `a` on `s`. -/

open Sys2Proof Sys2Proof.Machine

/-! ### Encoding and the decode step -/

/-- Decoding the word of a well-formed command gives the command back, every operand at every value
(30_encoding.md R39, R40, R41). -/
def Obligations.DecodeOfEncodeIsTheCommand : Prop :=
  ∀ i : Instr, i.wellFormed = true → decode (encode i) = .instr i

/-- A legal word decodes to a well-formed command whose encoding is that word, ignored byte included
(R39, R40, R41, R44). -/
def Obligations.EncodeOfDecodeIsTheWord : Prop :=
  ∀ (w : Cmd) (i : Instr), decode w = .instr i → i.wellFormed = true ∧ encode i = w

/-- The decode step of R46, on the number of the word, total on all words. -/
def Obligations.DecodeStepSelectsByFields : Prop :=
  ∀ (w : Cmd) (s : State),
    let rsvd : Nat := w.toNat / 2 ^ 19
    let op : Nat := w.toNat / 2 ^ 16 % 8
    let data : Nat := w.toNat % 2 ^ 16
    let x : Int := if data < 2 ^ 15 then (data : Int) else (data : Int) - 2 ^ 16
    step (s.push (.issue w)) =
      if rsvd ≠ 0 then .next { s with ill := true }
      else if op = 0 then exec (.alawEnc x) s
      else if op = 1 then exec (.alawDec (data / 256) (data % 256)) s
      else if op = 2 then exec (.ulawEnc x) s
      else if op = 3 then exec (.ulawDec (data / 256) (data % 256)) s
      else if op = 4 then exec (.segSearch data) s
      else .next { s with ill := true }

/-- Every legal word matches exactly one row of the opcode map, the row of the command it decodes to,
and an illegal word matches none (30_encoding.md section 3). -/
def Obligations.LegalWordsMatchExactlyOneRow : Prop :=
  ∀ w : Cmd,
    (opcodeMap.filter (fun r => r.accepts w)).length = (if legalWord w then 1 else 0) ∧
    ∀ i, decode w = .instr i →
      opcodeMap.filter (fun r => r.accepts w) =
        opcodeMap.filter (fun r => decide (r.mnemonic = i.mnemonic))

/-- Words of the manual's test vectors decode to the commands they stand for. -/
def Obligations.WordsOfTheManualDecode : Prop :=
  decode 0x000003E8#32 = .instr (.alawEnc 1000) ∧
  decode 0x0000FFFF#32 = .instr (.alawEnc (-1)) ∧
  decode 0x000100FA#32 = .instr (.alawDec 0 0xFA) ∧
  decode 0x00020FA0#32 = .instr (.ulawEnc 4000) ∧
  decode 0x00031200#32 = .instr (.ulawDec 0x12 0) ∧
  decode 0x00048001#32 = .instr (.segSearch 0x8001) ∧
  decode 0x00050000#32 = .opReserved ∧
  decode 0x000C0000#32 = .rsvdNonzero

/-- A step on an issued legal word is the execution of the command it decodes to, with the word taken
off the pending actions and nothing else around it (00_scope.md R12). -/
def Obligations.StepRunsTheDecodedCommand : Prop :=
  ∀ (s : State) (w : Cmd) (rest : List HostAct) (i : Instr),
    s.inputs = .issue w :: rest → decode w = .instr i → step s = exec i (s.withInputs rest)

/-- The byte `DATA[15:8]` of a decoder word is ignored, and every value of it is legal (R44). -/
def Obligations.DecodersIgnoreTheHighByte : Prop :=
  ∀ (op : BitVec 3) (hi c : Byte) (s : State), op = 1#3 ∨ op = 3#3 →
    (∃ i, decode (commandWord op (hi ++ c)) = .instr i) ∧
    step (s.push (.issue (commandWord op (hi ++ c)))) =
      step (s.push (.issue (commandWord op (zext16 c.toNat)))) ∧
    step (s.push (.issue (commandWord op (sext16 c)))) =
      step (s.push (.issue (commandWord op (zext16 c.toNat))))

/-! ### IllegalCommand and STATUS -/

/-- A word with RSVD not 0 or OP 5, 6 or 7 sets ILL and changes nothing else (R42, R43, R96). -/
def Obligations.IllegalWordsOnlySetIll : Prop :=
  ∀ (w : Cmd) (s : State),
    w.toNat / 2 ^ 19 ≠ 0 ∨ 5 ≤ w.toNat / 2 ^ 16 % 8 →
      step (s.push (.issue w)) = .next { s with ill := true }

/-- Every other word completes: it writes RESULT and changes nothing else, STATUS included (R20). -/
def Obligations.LegalWordsOnlyWriteResult : Prop :=
  ∀ (w : Cmd) (s : State),
    w.toNat / 2 ^ 19 = 0 → w.toNat / 2 ^ 16 % 8 < 5 →
      ∃ v, step (s.push (.issue w)) = .next { s with result := v }

/-- STATUS is bit 0 = ILL under fifteen zeros, whatever the state (10_state.md R16). -/
def Obligations.StatusIsIllUnderZeros : Prop :=
  ∀ s : State, s.status.getLsbD 0 = s.ill ∧
    ∀ k, 1 ≤ k → k < 16 → s.status.getLsbD k = false

/-- STATUS reads 0 or 1; after IllegalCommand it reads the cause code 1, further illegal commands leave it so, and nothing
of the word or of their count is recorded (R97). -/
def Obligations.IllegalCommandRecordsCauseOne : Prop :=
  (∀ s : State, s.status = 0x0000#16 ∨ s.status = 0x0001#16) ∧
  ∀ (s : State) (w w' : Cmd), legalWord w = false → legalWord w' = false →
    ∃ t, step (s.push (.issue w)) = .next t ∧ t.status = 0x0001#16 ∧
      step (s.push (.issue w')) = .next t ∧ step (t.push (.issue w')) = .next t

/-- ILL is sticky: IllegalCommand sets it, no transaction clears it, only reset does, and a legal command
performs the same whatever it is (R17). What ILL is after a loss of power is unspecified (R107), so that
action stands beside reset in the third clause. -/
def Obligations.IllIsStickyUntilReset : Prop :=
  ∀ s : State,
    (∀ w t, legalWord w = false → step (s.push (.issue w)) = .next t → t.ill = true) ∧
    (∀ w t, step (s.push (.issue w)) = .next t → s.ill = true → t.ill = true) ∧
    (∀ t, step s = .next t → s.ill = true → t.ill = false →
      ∃ a rest, s.inputs = a :: rest ∧ ((∃ ws, a = .reset ws) ∨ ∃ draw, a = .powerCycle draw)) ∧
    (∀ ws, ∃ t, step (s.push (.reset ws)) = .next t ∧ t.ill = false) ∧
    (∀ w, legalWord w = true → ∃ v, ∀ b : Bool,
      step (({ s with ill := b } : State).push (.issue w)) = .next { s with ill := b, result := v })

/-- IllegalCommand is precise (R98): in a sequence of commands, the run up to and including an illegal
one is the run of the earlier ones with ILL set, the later ones all still to come. -/
def Obligations.IllegalCommandIsPrecise : Prop :=
  ∀ (s : State) (before after : List Cmd) (w : Cmd), legalWord w = false →
    ∃ t, run before.length (s.withInputs ((before ++ after).map .issue)) = .next t ∧
      t.inputs = after.map .issue ∧
      run (before.length + 1) (s.withInputs ((before ++ w :: after).map .issue)) =
        .next { t with ill := true }

/-! ### What a sequence of commands leaves -/

/-- After a sequence of commands RESULT is the value of the last legal one and ILL tells whether one was
illegal; nothing else has changed (10_state.md R15, R16, 60_exceptions.md R109). -/
def Obligations.CommandSequenceLeavesLastResult : Prop :=
  ∀ (s : State) (ws : List Cmd),
    run ws.length (s.withInputs (ws.map .issue)) =
      .next { s with
        inputs := []
        result := lastResult s.config s.result ws
        ill := s.ill || ws.any (fun w => !legalWord w) }

/-- A command sequence that starts clean ends clean exactly if every word of it was legal: a run that ends
with ILL set contains an IllegalCommand (60_exceptions.md R109). -/
def Obligations.CleanRunHadOnlyLegalWords : Prop :=
  ∀ (s : State) (ws : List Cmd), s.clean = true →
    ∃ t, run ws.length (s.withInputs (ws.map .issue)) = .next t ∧
      (t.clean = true ↔ ∀ w ∈ ws, legalWord w = true)

/-- A host read returns what every earlier transaction left and nothing of the later ones (20_memory.md
R34). -/
def Obligations.ReadsSeeExactlyEarlierCommands : Prop :=
  ∀ (s : State) (before after : List Cmd),
    ∃ t, run (before.length + 2 + after.length)
        (s.withInputs (before.map .issue ++ .readResult :: .readStatus :: after.map .issue)) = .next t ∧
      t.reads = s.reads ++
        [.result (lastResult s.config s.result before),
         .status (if s.ill || before.any (fun w => !legalWord w) then 1#16 else 0#16)]

/-- What a command writes depends on its word and MULAW_DECODE_RULE only, not on RESULT, STATUS, earlier
commands or anything else of the instance (10_state.md R19). -/
def Obligations.ResultDependsOnWordAndRuleOnly : Prop :=
  ∀ (w : Cmd) (s t : State), legalWord w = true →
    s.config.mulawDecodeRule = t.config.mulawDecodeRule →
      ∃ v, step (s.push (.issue w)) = .next { s with result := v } ∧
        step (t.push (.issue w)) = .next { t with result := v }

/-- Reads have no side effect on the core and repeat; a command issued again, legal or illegal, changes
nothing more (20_memory.md R31). -/
def Obligations.ReadsAndCommandsAreIdempotent : Prop :=
  ∀ s : State,
    (∃ t u, step (s.push .readResult) = .next t ∧ t = { s with reads := s.reads ++ [.result s.result] } ∧
      step (t.push .readResult) = .next u ∧ u.reads = t.reads ++ [.result s.result]) ∧
    (∃ t u, step (s.push .readStatus) = .next t ∧ t = { s with reads := s.reads ++ [.status s.status] } ∧
      step (t.push .readStatus) = .next u ∧ u.reads = t.reads ++ [.status s.status]) ∧
    (∀ w t, step (s.push (.issue w)) = .next t → step (t.push (.issue w)) = .next t)

/-- A host that does nothing leaves the instance unchanged for any number of steps (R108). -/
def Obligations.IdleHostChangesNothing : Prop :=
  ∀ (s : State) (k : Nat), s.inputs = [] → run k s = .next s

/-! ### Reset, power and the build parameter -/

/-- Reset makes RESULT and STATUS 0 and keeps the rest; the words issued during it leave no trace
(70_reset_and_hazards.md R111, R113). -/
def Obligations.ResetClearsRegistersAndWins : Prop :=
  ∀ (s : State) (during : List Cmd),
    ∃ t, step (s.push (.reset during)) = .next t ∧ t = { s with result := 0x0000#16, ill := false } ∧
      t.status = 0x0000#16 ∧ t.config.mulawDecodeRule = s.config.mulawDecodeRule

/-- The reset state has RESULT and STATUS 0 (R112). -/
def Obligations.ResetStateIsZero : Prop :=
  State.reset.result = 0x0000#16 ∧ State.reset.status = 0x0000#16

/-- After a loss of power one reset establishes the reset values, whatever the free power-up values are
and whichever draw names them; STATUS[15:1] reads 0 all along (R107, R112, R16). That the action names a
draw is the model's choice (log 5). -/
def Obligations.ResetAfterPowerLossIsDefined : Prop :=
  ∀ (s : State) (draw : Nat), ∃ t, step (s.push (.powerCycle draw)) = .next t ∧
    (∀ k, 1 ≤ k → k < 16 → t.status.getLsbD k = false) ∧ t.config = s.config ∧
    step (t.push (.reset [])) =
      .next { s with result := 0x0000#16, ill := false, powerUps := s.powerUps + 1 }

/-- No step changes the build parameter, and only ULAW_DEC reads it (10_state.md R21). -/
def Obligations.DecodeRuleIsFixedAndReadByUlawDecOnly : Prop :=
  (∀ s t : State, step s = .next t → t.config = s.config) ∧
  ∀ (i : Instr) (s t : State) (cfg : Config), (∀ hi c, i ≠ .ulawDec hi c) → exec i s = .next t →
    exec i { s with config := cfg } = .next { t with config := cfg }

/-! ### The segment search -/

/-- The closed forms of the search (41_segment_search.md R58). -/
def Obligations.SegmentClosedForms : Prop :=
  (∀ i < 8, boundary[i]? = some (2 ^ (i + 8) - 1)) ∧
  ∀ m ≤ 65535,
    seg m = (if m ≤ 255 then 0 else Nat.log2 m - 7) ∧
    (∀ i < 8, ∀ b, boundary[i]? = some b →
      (m ≤ b ↔ m < 2 ^ (i + 8)) ∧ (m ≤ b ↔ m >>> (i + 8) = 0)) ∧
    seg m = (if m / 256 = 0 then 0 else 1 + Nat.log2 (m / 256)) ∧
    (∀ k, 1 ≤ k → k ≤ 8 → (seg m = k ↔ 2 ^ (k + 7) ≤ m ∧ m ≤ 2 ^ (k + 8) - 1)) ∧
    (seg m = 0 ↔ m ≤ 255)

/-- The eight comparators form a thermometer code whose first 1, whose count of 0 and whose leading-one
detector all give the segment (R59). -/
def Obligations.ComparatorFormGivesSegment : Prop :=
  ∀ m ≤ 65535,
    (∀ i < 7, (comparators m)[i]? = some true → (comparators m)[i + 1]? = some true) ∧
    seg m = (comparators m).findIdx (fun k => k) ∧
    seg m = (comparators m).count false ∧
    seg m = segLeadingOne m

/-- The boundary property (R61). -/
def Obligations.BoundariesSeparateSegments : Prop :=
  ∀ i < 8, ∀ b, boundary[i]? = some b → seg b = i ∧ seg (b + 1) = i + 1

/-- Inside the encoders the search input is in range and the segment below the sentinel (R60). -/
def Obligations.EncoderSearchInputsAreInRange : Prop :=
  ∀ x : Int, -32768 ≤ x → x ≤ 32767 →
    alawMagnitude x ≤ 32767 ∧ seg (alawMagnitude x) ≤ 7 ∧
    132 ≤ ulawBiased (ulawMagnitude x) ∧ ulawBiased (ulawMagnitude x) ≤ 32767 ∧
    seg (ulawBiased (ulawMagnitude x)) ≤ 7 ∧
    ulawMagnitude x + 132 ≤ 32900 ∧ (ulawMagnitude x + 132 = 32900 ↔ x = -32768)

/-- SEG_SEARCH completes for every magnitude: RESULT is the segment, by its closed form, and nothing else
changes (R57, R58). -/
def Obligations.SegSearchWritesSegment : Prop :=
  ∀ (m : Nat) (s : State), m ≤ 65535 →
    exec (.segSearch m) s =
      .next { s with result := BitVec.ofNat 16 (if m ≤ 255 then 0 else Nat.log2 m - 7) }

/-! ### A-law -/

/-- ALAW_ENC completes for every sample: RESULT is the code in the bit form of 42_alaw.md R62 with the
raw fields of 30_encoding.md R48, and nothing else changes. -/
def Obligations.AlawEncWritesCode : Prop :=
  ∀ (x : Int) (s : State), -32768 ≤ x → x ≤ 32767 →
    let p : Half := BitVec.ofInt 16 x
    let m : Nat := (if p.getLsbD 15 then ~~~p else p).toNat % 2 ^ 15
    exec (.alawEnc x) s =
      .next { s with result :=
        0#8 ++ (BitVec.ofBool (decide (0 ≤ x)) ++ (BitVec.ofNat 3 (segClosed m) ^^^ 0b101#3) ++
          (BitVec.ofNat 4 (alawNibble m) ^^^ 0b0101#4)) }

/-- ALAW_DEC completes for every code: RESULT is the pattern of the sample that the closed form of
42_alaw.md R69 gives, the ignored byte has no effect, and nothing else changes. -/
def Obligations.AlawDecWritesSample : Prop :=
  ∀ (hi c : Nat) (s : State), hi ≤ 255 → c ≤ 255 →
    let a : Nat := c ^^^ 0x55
    let t : Int := alawClosedMagnitude (a / 16 % 8) (a % 16)
    exec (.alawDec hi c) s =
      .next { s with result := BitVec.ofInt 16 (if 128 ≤ c then t else -t) }

/-- The A-law clamp and step 3 are never taken and change no output (42_alaw.md R64). -/
def Obligations.AlawUnreachableBranches : Prop :=
  ∀ x : Int, -32768 ≤ x → x ≤ 32767 →
    (x < 0 → 0 ≤ -x - 1 ∧ -x - 1 ≤ 32767) ∧
    alawMagnitude (-32768) = 32767 ∧
    seg (alawMagnitude x) ≤ 7 ∧
    0x7F = alawBody 32767 ∧ seg 32767 = 7 ∧ alawNibble 32767 = 15 ∧
    alawEncodeReduced x = alawEncode x

/-- A-law pairs `x` with `-x-1`: the codes differ only in bit 7 (R65). -/
def Obligations.AlawSymmetry : Prop :=
  ∀ x : Int, 0 ≤ x → x ≤ 32767 → alawEncode x ^^^ alawEncode (-x - 1) = 0x80

/-- A larger A-law magnitude never has a smaller 7-bit value (R66). -/
def Obligations.AlawMonotone : Prop :=
  (∀ m n : Nat, m ≤ n → n ≤ 32767 → alawBody m ≤ alawBody n) ∧
  (∀ x y : Int, 0 ≤ x → x ≤ y → y ≤ 32767 → alawEncode x ^^^ 0xD5 ≤ alawEncode y ^^^ 0xD5) ∧
  (∀ x y : Int, -32768 ≤ x → x ≤ y → y < 0 → alawEncode y ^^^ 0x55 ≤ alawEncode x ^^^ 0x55)

/-- The A-law decoded values: closed form, sign, distinctness, extremes, and each the upper of the two
middle integers of the interval that encodes to its code (R69). -/
def Obligations.AlawDecodedValuesAreMidpoints : Prop :=
  (∀ c ≤ 255,
    let s : Nat := (c ^^^ 0x55) / 16 % 8
    let q : Nat := (c ^^^ 0x55) % 16
    let t : Int := alawClosedMagnitude s q
    alawDecode c = (if 128 ≤ c then t else -t) ∧ 8 ≤ t ∧ t ≤ 32256) ∧
  (∀ c ≤ 255, ∀ d ≤ 255, alawDecode c = alawDecode d → c = d) ∧
  ((∃ c ≤ 255, alawDecode c = 8) ∧ ∃ c ≤ 255, alawDecode c = 32256) ∧
  ∀ s < 8, ∀ q < 16,
    let lo : Nat := if s = 0 then 16 * q else (16 + q) * 2 ^ (s + 3)
    let hi : Nat := if s = 0 then 16 * q + 15 else (17 + q) * 2 ^ (s + 3) - 1
    (∀ m ≤ 32767, alawBody m = 16 * s + q ↔ lo ≤ m ∧ m ≤ hi) ∧
    (hi + 1 - lo) % 2 = 0 ∧ 2 * alawClosedMagnitude s q = lo + hi + 1

/-- Every A-law code re-encodes to itself (R70). -/
def Obligations.AlawReencodeIsIdentity : Prop :=
  ∀ c ≤ 255, alawEncode (alawDecode c) = c

/-- The A-law round-trip error is at most `E_A(s)`, a bound reached in every segment (R71). -/
def Obligations.AlawRoundTripBound : Prop :=
  (∀ x : Int, -32768 ≤ x → x ≤ 32767 →
    |alawDecode (alawEncode x) - x| ≤ alawErrorBound (seg (alawMagnitude x))) ∧
  (∀ k < 8, ∃ x : Int, -32768 ≤ x ∧ x ≤ 32767 ∧ seg (alawMagnitude x) = k ∧
    |alawDecode (alawEncode x) - x| = alawErrorBound k) ∧
  alawDecode (alawEncode (-32768)) = -32256

/-! ### μ-law -/

/-- ULAW_ENC completes for every sample: RESULT is the code in the bit form of 43_mulaw.md R74 with the
raw fields of 30_encoding.md R49, and nothing else changes. -/
def Obligations.UlawEncWritesCode : Prop :=
  ∀ (x : Int) (s : State), -32768 ≤ x → x ≤ 32767 →
    let b : Nat := min (x.natAbs + 132) 32767
    exec (.ulawEnc x) s =
      .next { s with result :=
        0#8 ++ (BitVec.ofBool (decide (0 ≤ x)) ++ (0b111#3 - BitVec.ofNat 3 (segClosed b)) ++
          (0b1111#4 - BitVec.ofNat 4 (ulawNibble b))) }

/-- ULAW_DEC completes for every code under either decoder rule: RESULT is the pattern of the sample that
the closed forms of 43_mulaw.md R82 give, and nothing else changes. It holds for each value of
MULAW_DECODE_RULE. -/
def Obligations.UlawDecWritesSample : Prop :=
  ∀ (hi c : Nat) (s : State), hi ≤ 255 → c ≤ 255 →
    let sg : Nat := (255 - c) / 16 % 8
    let q : Nat := (255 - c) % 16
    let t : Int :=
      if s.config.mulawDecodeRule = .g711 then g711ClosedMagnitude sg q else docClosedMagnitude sg q
    exec (.ulawDec hi c) s =
      .next { s with result := BitVec.ofInt 16 (if 128 ≤ c then t else -t) }

/-- The μ-law clamp and step 4 are redundant with each other (43_mulaw.md R76). -/
def Obligations.UlawClampAndBranchAreRedundant : Prop :=
  ∀ x : Int, -32768 ≤ x → x ≤ 32767 →
    seg (ulawBiased (ulawMagnitude x)) ≤ 7 ∧
    ulawMagnitude x + 132 ≤ 32900 ∧
    (8 ≤ seg (ulawMagnitude x + 132) ↔ 32768 ≤ ulawMagnitude x + 132) ∧
    0x7F = ulawBody 32767 ∧ seg 32767 = 7 ∧ ulawNibble 32767 = 15 ∧
    ulawEncodeNoClamp x = ulawEncode x ∧
    ulawEncodeNoBranch x = ulawEncode x

/-- μ-law pairs `x` with `-x`; -32768 has the code of -32767, which is 0 (R77). -/
def Obligations.UlawSymmetry : Prop :=
  (∀ x : Int, 1 ≤ x → x ≤ 32767 → ulawEncode x ^^^ ulawEncode (-x) = 0x80) ∧
  ulawEncode (-32768) = 0x00 ∧ ulawEncode (-32767) = 0x00

/-- A larger μ-law magnitude never has a smaller 7-bit value (R78). -/
def Obligations.UlawMonotone : Prop :=
  ∀ m n : Nat, m ≤ n → n ≤ 32768 → ulawBody (ulawBiased m) ≤ ulawBody (ulawBiased n)

/-- The μ-law decoded values of both decoder rules: closed forms, ranges, distinctness, and for G711 the
midpoints of the encode intervals in the biased domain (R82). -/
def Obligations.UlawDecodedValuesClosedForms : Prop :=
  (∀ c ≤ 255,
    let s : Nat := (255 - c) / 16 % 8
    let q : Nat := (255 - c) % 16
    let g : Int := g711ClosedMagnitude s q
    let d : Int := docClosedMagnitude s q
    g = (8 * q + 132) * 2 ^ s - 132 ∧
    ulawDecodeG711 c = (if 128 ≤ c then g else -g) ∧ 0 ≤ g ∧ g ≤ 32124 ∧
    ulawDecodeDoc c = (if 128 ≤ c then d else -d) ∧
    (s = 0 → 132 ≤ d ∧ d ≤ 252) ∧ (1 ≤ s → 388 ≤ d ∧ d ≤ 32512)) ∧
  (ulawDecodeG711 0xFF = 0 ∧ ulawDecodeG711 0x7F = 0 ∧
    ∀ c ≤ 255, ∀ d ≤ 255, c ≠ 0x7F → d ≠ 0x7F → ulawDecodeG711 c = ulawDecodeG711 d → c = d) ∧
  (∀ c ≤ 255, ∀ d ≤ 255, ulawDecodeDoc c = ulawDecodeDoc d → c = d) ∧
  (∀ c ≤ 255, ulawDecodeDoc c ≠ 0) ∧
  ∀ s < 8, ∀ q < 16,
    let lo : Nat := if s = 0 then 128 + 8 * q else (16 + q) * 2 ^ (s + 3)
    let hi : Nat := if s = 0 then 135 + 8 * q else (17 + q) * 2 ^ (s + 3) - 1
    (∀ b, 132 ≤ b → b ≤ 32767 → (ulawBody b = 16 * s + q ↔ lo ≤ b ∧ b ≤ hi)) ∧
    (hi + 1 - lo) % 2 = 0 ∧ 2 * ((8 * q + 132) * 2 ^ s) = lo + hi + 1

/-- The DOC_LITERAL decoder is not the inverse of the encoder: only two codes re-encode to themselves
(R80). It is a statement about that rule alone. -/
def Obligations.DocLiteralReencodesTwoCodesOnly : Prop :=
  ulawEncode 0 = 0xFF ∧ ulawDecodeDoc 0xFF = 132 ∧
  ∀ c ≤ 255, (ulawEncode (ulawDecodeDoc c) = c ↔ c = 0x00 ∨ c = 0x80)

/-- Under G711 every code but 0x7F re-encodes to itself (R83). It is a statement about that rule alone. -/
def Obligations.G711ReencodeIsIdentity : Prop :=
  (∀ c ≤ 255, c ≠ 0x7F → ulawEncode (ulawDecodeG711 c) = c) ∧
  ulawDecodeG711 0x7F = 0 ∧ ulawEncode 0 = 0xFF

/-- The round-trip error under G711: at most `E_U(s)` outside the clamp, a bound reached in every
segment; in the clamp region the result is ±32124 (R84). It is a statement about that rule alone. -/
def Obligations.G711RoundTripBound : Prop :=
  (∀ x : Int, -32635 ≤ x → x ≤ 32635 →
    |ulawDecodeG711 (ulawEncode x) - x| ≤ ulawErrorBound (seg (x.natAbs + 132))) ∧
  (∀ k < 8, ∃ x : Int, -32635 ≤ x ∧ x ≤ 32635 ∧ seg (x.natAbs + 132) = k ∧
    |ulawDecodeG711 (ulawEncode x) - x| = ulawErrorBound k) ∧
  (∀ x : Int, -32768 ≤ x → x ≤ 32767 → 32636 ≤ |x| →
    ulawDecodeG711 (ulawEncode x) = (if 0 ≤ x then 32124 else -32124) ∧
    |ulawDecodeG711 (ulawEncode x) - x| = |x| - 32124 ∧ 512 ≤ |x| - 32124 ∧ |x| - 32124 ≤ 644) ∧
  |ulawDecodeG711 (ulawEncode (-32768)) - (-32768)| = 644 ∧
  |ulawDecodeG711 (ulawEncode 32767) - 32767| = 643 ∧
  ulawDecodeDoc (ulawEncode 0) = 132

/-! ### Results -/

/-- In both laws bit 7 of a code is 1 exactly for a non-negative sample (30_encoding.md R50). -/
def Obligations.CodeBitSevenIsTheSign : Prop :=
  ∀ x : Int, -32768 ≤ x → x ≤ 32767 →
    ((alawEncode x).testBit 7 = decide (0 ≤ x)) ∧ ((ulawEncode x).testBit 7 = decide (0 ≤ x)) ∧
    alawBody (alawMagnitude x) ≤ 0x7F ∧ ulawBody (ulawBiased (ulawMagnitude x)) ≤ 0x7F

/-- The packing of results: the high byte is 0 after an encoder and the signed container
`sext_16(RESULT[7:0])` holds the same 8 bits, RESULT denotes the decoded sample after
a decoder, and is 0 to 8 after SEG_SEARCH (30_encoding.md R47). -/
def Obligations.ResultPacking : Prop :=
  ∀ (i : Instr) (s t : State), i.wellFormed = true → exec i s = .next t →
    match i with
    | .alawEnc x => t.result.toNat = alawEncode x ∧ t.result.toNat < 256 ∧
      (sext16 (codeField t.result)).toNat % 256 = alawEncode x
    | .ulawEnc x => t.result.toNat = ulawEncode x ∧ t.result.toNat < 256 ∧
      (sext16 (codeField t.result)).toNat % 256 = ulawEncode x
    | .alawDec _ c => t.result.toInt = alawDecode c
    | .ulawDec _ c =>
      t.result.toInt =
        if s.config.mulawDecodeRule = .g711 then ulawDecodeG711 c else ulawDecodeDoc c
    | .segSearch m => t.result.toNat = seg m ∧ t.result.toNat ≤ 8

/-- Which commands write 0x0000 to RESULT under G711, and that DOC_LITERAL never does
(70_reset_and_hazards.md R117, 43_mulaw.md R82). -/
def Obligations.CommandsThatWriteZero : Prop :=
  ∀ (i : Instr) (s t : State), i.wellFormed = true → exec i s = .next t →
    (t.result = 0x0000#16 ↔
      match i with
      | .alawEnc x => -5632 ≤ x ∧ x ≤ -5377
      | .ulawEnc x => x ≤ -31612
      | .alawDec _ _ => False
      | .ulawDec _ c => s.config.mulawDecodeRule = .g711 ∧ (c = 0xFF ∨ c = 0x7F)
      | .segSearch m => m ≤ 255)

/-- The invariant of RESULT is kept by every step: no sequence of host actions without a loss of power
ever makes RESULT denote a value beyond the decoders' extremes (42_alaw.md R68, 43_mulaw.md R81). -/
def Obligations.EveryStepKeepsResultInRange : Prop :=
  ∀ s t : State, s.Inv → step s = .next t → t.Inv

/-- The reset state meets the invariant of RESULT. -/
def Obligations.ResetMeetsResultRange : Prop := State.reset.Inv

/-! ### Batch wrappers of the host -/

/-- `encodeALaw` and `encodeMuLaw`: the first `n` elements of the output become the codes of the first
`n` samples, as bytes or, in an array of signed byte containers, as `sext_16` of them (R94), in 3n + 2
steps; the other elements, the other arrays, STATUS and the pending actions are unchanged, and RESULT is
the last code (44_batch_host.md R88, R91). The number of steps, the list of reads and the form of a
container array are the model's choice (log 6, log 7, log 9). -/
def Obligations.BatchEncodesElementwise : Prop :=
  ∀ (law : Law) (cc : CodeContainer) (s : State) (inp out n : Nat) (xs : List Half) (b : HostArray),
    s.arrays[inp]? = some (.samples xs) → s.arrays[out]? = some b →
    (Wrapper.encode law).outKind b = true → n ≤ xs.length → n ≤ b.len →
    let codes : List Byte := (xs.take n).map (encodeSample law)
    let results : List Half := codes.map (fun c => zext16 c.toNat)
    run (3 * n + 2) (s.push (.batch (.encode law) cc inp out n)) =
      .next { s with
        result := results.getLast?.getD s.result
        reads := s.reads ++ results.map .result
        arrays := s.arrays.set out (b.putCodes codes) }

/-- `decodeALaw` and `decodeMuLaw`, with codes held as bytes or in signed byte containers and passed
zero-extended or sign-extended alike (R88, R91, R94). It holds for each value of MULAW_DECODE_RULE. The
number of steps, the list of reads and the form of a container array are the model's choice (log 6, log 7,
log 9). -/
def Obligations.BatchDecodesElementwise : Prop :=
  ∀ (law : Law) (cc : CodeContainer) (s : State) (inp out n : Nat) (a : HostArray) (cs : List Byte)
    (xs : List Half),
    s.arrays[inp]? = some a → a.codeBytes = some cs → s.arrays[out]? = some (.samples xs) →
    n ≤ cs.length → n ≤ xs.length →
    let samples : List Half := (cs.take n).map (decodeCode s.config law)
    run (3 * n + 2) (s.push (.batch (.decode law) cc inp out n)) =
      .next { s with
        result := samples.getLast?.getD s.result
        reads := s.reads ++ samples.map .result
        arrays := s.arrays.set out (.samples (samples ++ xs.drop n)) }

/-- Any order of the `n` iterations leaves the same arrays, for the two encode wrappers and for the two
decode wrappers with either widening and either MULAW_DECODE_RULE, whether `b` holds codes as bytes or in
signed byte containers (R92, R94). That a loop is `3n + 1` steps is the model's choice (log 9). -/
def Obligations.BatchOrderDoesNotMatter : Prop :=
  ∀ (law : Law) (cc : CodeContainer) (s : State) (inp out n : Nat) (xs : List Half) (b : HostArray)
    (cs : List Byte) (order : List Nat),
    b.codeBytes = some cs → n ≤ xs.length → n ≤ cs.length → order.Perm (List.range n) →
    (s.arrays[inp]? = some (.samples xs) → s.arrays[out]? = some b →
      ∃ t, run (3 * n + 1) (s.push (.iterate (.encode law) cc inp out order)) = .next t ∧
        t.arrays = s.arrays.set out (b.putCodes ((xs.take n).map (encodeSample law))) ∧
        t.ill = s.ill ∧ t.inputs = s.inputs) ∧
    (s.arrays[inp]? = some b → s.arrays[out]? = some (.samples xs) →
      ∃ t, run (3 * n + 1) (s.push (.iterate (.decode law) cc inp out order)) = .next t ∧
        t.arrays = s.arrays.set out (.samples ((cs.take n).map (decodeCode s.config law) ++ xs.drop n)) ∧
        t.ill = s.ill ∧ t.inputs = s.inputs)

/-- A count that is not positive issues no command and changes nothing (R90). That the call takes two
steps is the model's choice (log 9). -/
def Obligations.BatchWithoutCountDoesNothing : Prop :=
  ∀ (wr : Wrapper) (cc : CodeContainer) (s : State) (inp out : Nat) (n : Int) (a b : HostArray),
    inp ≠ out → s.arrays[inp]? = some a → s.arrays[out]? = some b →
    wr.inKind a = true → wr.outKind b = true → n ≤ 0 →
    run 2 (s.push (.batch wr cc inp out n)) = .next s

/-- A violated batch precondition is a host fault, never a value (R89). The model's choices: sharing
storage is being one index (log 7); sharing is checked before anything else, so that one index for input
and output faults for every count and whatever that array is (log 8). -/
def Obligations.BatchPreconditionViolationFaults : Prop :=
  ∀ (wr : Wrapper) (cc : CodeContainer) (s : State) (inp out : Nat) (n : Int),
    (inp = out → step (s.push (.batch wr cc inp out n)) = .fault .hostPrecondition) ∧
    ∀ a b, inp ≠ out → s.arrays[inp]? = some a → s.arrays[out]? = some b →
      wr.inKind a = true → wr.outKind b = true → (a.len : Int) < n ∨ (b.len : Int) < n →
      step (s.push (.batch wr cc inp out n)) = .fault .hostPrecondition

/-- The same wrapper run twice on the same input writes the same arrays (R93). That a call takes `3n + 2`
steps is the model's choice (log 9). -/
def Obligations.BatchIsIdempotent : Prop :=
  ∀ (wr : Wrapper) (cc : CodeContainer) (s t : State) (inp out n : Nat),
    run (3 * n + 2) (s.push (.batch wr cc inp out n)) = .next t →
    ∃ u, run (3 * n + 2) (t.push (.batch wr cc inp out n)) = .next u ∧ u.arrays = t.arrays

/-! ### Assembler and platform -/

/-- The assembler accepts exactly the operands in range, decimal or hexadecimal, and gives the word
`{13'b0, OP, DATA}`; on text, a line is a mnemonic in either case of letters and one literal
(30_encoding.md R52). The lexical details are the model's choice (log 15). -/
def Obligations.AssemblerAcceptsExactlyTheRanges : Prop :=
  (∀ v : Int,
    assemble (.cmd .alawEnc (.dec v)) =
      (if -32768 ≤ v ∧ v ≤ 32767 then some (fieldsWord 0 0 (v % 65536).toNat) else none) ∧
    assemble (.cmd .ulawEnc (.dec v)) =
      (if -32768 ≤ v ∧ v ≤ 32767 then some (fieldsWord 0 2 (v % 65536).toNat) else none) ∧
    assemble (.cmd .alawDec (.dec v)) =
      (if 0 ≤ v ∧ v ≤ 255 then some (fieldsWord 0 1 v.toNat) else none) ∧
    assemble (.cmd .ulawDec (.dec v)) =
      (if 0 ≤ v ∧ v ≤ 255 then some (fieldsWord 0 3 v.toNat) else none) ∧
    assemble (.cmd .segSearch (.dec v)) =
      (if 0 ≤ v ∧ v ≤ 65535 then some (fieldsWord 0 4 v.toNat) else none)) ∧
  (∀ v : Nat,
    assemble (.cmd .alawEnc (.hex v)) = (if v ≤ 0xFFFF then some (fieldsWord 0 0 v) else none) ∧
    assemble (.cmd .ulawEnc (.hex v)) = (if v ≤ 0xFFFF then some (fieldsWord 0 2 v) else none) ∧
    assemble (.cmd .alawDec (.hex v)) = (if v ≤ 0xFF then some (fieldsWord 0 1 v) else none) ∧
    assemble (.cmd .ulawDec (.hex v)) = (if v ≤ 0xFF then some (fieldsWord 0 3 v) else none) ∧
    assemble (.cmd .segSearch (.hex v)) = (if v ≤ 0xFFFF then some (fieldsWord 0 4 v) else none)) ∧
  (∀ (t : List Char) (mn : Mnemonic), parseMnemonic t = some mn ↔ t.map Char.toUpper = mnemonicText mn) ∧
  (∀ (t l : List Char) (mn : Mnemonic), t.map Char.toUpper = mnemonicText mn → l ≠ [] → ' ' ∉ l →
    assembleText (t ++ ' ' :: l) = (parseLiteral l).bind (fun v => assemble (.cmd mn v))) ∧
  (∀ n : Nat, parseLiteral (Nat.toDigits 10 n) = some (.dec n) ∧
    parseLiteral ('-' :: Nat.toDigits 10 n) = some (.dec (-(n : Int)))) ∧
  ∀ width n : Nat, 0 < width → n < 16 ^ width → parseLiteral (hexText width n) = some (.hex n)

/-- `.word` emits any word and is printed `.word 0x` and eight hexadecimal digits; a word that matches no
row, and a decoder word with a nonzero high byte, is printed as `.word`; every printed line, as syntax and
as text, assembles to the word it came from (R53). -/
def Obligations.ReassemblyReproducesEveryWord : Prop :=
  ∀ w : Cmd,
    (AsmLine.word w.toNat).text.length = 16 ∧
    (AsmLine.word w.toNat).text.take 8 = ['.', 'w', 'o', 'r', 'd', ' ', '0', 'x'] ∧
    (∀ k < 8, (AsmLine.word w.toNat).text[8 + k]? = some (hexDigit (w.toNat / 16 ^ (7 - k) % 16))) ∧
    assemble (.word w.toNat) = some w ∧
    assemble (disassemble w) = some w ∧
    assembleText (AsmLine.word w.toNat).text = some w ∧
    assembleText (disassemble w).text = some w ∧
    (legalWord w = false → disassemble w = .word w.toNat) ∧
    (∀ hi c, 0 < hi → decode w = .instr (.alawDec hi c) ∨ decode w = .instr (.ulawDec hi c) →
      disassemble w = .word w.toNat)

/-- A step of one instance changes no other instance, and steps of two instances commute (10_state.md
R25). -/
def Obligations.InstancesShareNothing : Prop :=
  ∀ (p q : Platform) (k : Nat), Platform.step k p = .next q →
    q.length = p.length ∧
    ∀ j, j ≠ k → q[j]? = p[j]? ∧
      ∀ r, Platform.step j p = .next r →
        ∃ u, Platform.step j q = .next u ∧ Platform.step k r = .next u

/-- Any split of the index range across independent instances, each part in any order and the parts
interleaved in any way, leaves the arrays of the in-order loop on one instance (R92): once every instance
is idle the output is element-wise the result, and some schedule gets there. Nothing is said of any
RESULT. `b` holds codes as bytes or in signed byte containers (R94). The decode wrapper of μ-law needs
one build in all instances, or there is no one `f`. The host that shares its arrays between instances is
the model's form of R92 (log 19). -/
def Obligations.BatchSplitAcrossInstancesDoesNotMatter : Prop :=
  ∀ (law : Law) (cc : CodeContainer) (h : SharedHost) (inp out n : Nat) (xs : List Half)
    (b : HostArray) (cs : List Byte) (parts : List (List Nat)),
    b.codeBytes = some cs → n ≤ xs.length → n ≤ cs.length → h.idle = true →
    parts.length ≤ h.instances.length → parts.flatten.Perm (List.range n) →
    (h.arrays[inp]? = some (.samples xs) → h.arrays[out]? = some b →
      ∃ h₀, h.startSplit (.encode law) cc inp out n parts = .next h₀ ∧
        SharedHost.AlwaysLeaves h₀
          (h.arrays.set out (b.putCodes ((xs.take n).map (encodeSample law))))) ∧
    ∀ cfg : Config, (law = .mulaw → ∀ s ∈ h.instances, s.config = cfg) →
      h.arrays[inp]? = some b → h.arrays[out]? = some (.samples xs) →
      ∃ h₀, h.startSplit (.decode law) cc inp out n parts = .next h₀ ∧
        SharedHost.AlwaysLeaves h₀
          (h.arrays.set out (.samples ((cs.take n).map (decodeCode cfg law) ++ xs.drop n)))
end

