-- ==== Sys2Proof/Laws/Assembler.lean ====
section
/-! SUPPORT. What the tokens and the digits of an assembly line are read as. -/

namespace Sys2Proof.Machine

/-- Reading digits in two pieces is reading the first and then the second. -/
theorem parseDigits_append (base : Nat) (as bs : List Char) (acc : Nat) :
    parseDigits base (as ++ bs) acc = (parseDigits base as acc).bind (parseDigits base bs) := by
  induction as generalizing acc with
  | nil => rfl
  | cons ch as ih =>
    simp only [List.cons_append, parseDigits]
    split
    · rfl
    · split
      · exact ih _
      · rfl

/-- A printed hexadecimal digit is read back. -/
theorem digitValue_hexDigit : ∀ n < 16, digitValue (hexDigit n) = some n := by decide

/-- A decimal digit is read back. -/
theorem digitValue_digitChar : ∀ n < 10, digitValue (Nat.digitChar n) = some n := by decide

/-- A mnemonic holds no space in either case of letters. -/
theorem space_notMem_of_mnemonic {t : List Char} {mn : Mnemonic}
    (h : t.map Char.toUpper = mnemonicText mn) : ' ' ∉ t := by
  intro hmem
  have : ' ' ∈ mnemonicText mn := h ▸ List.mem_map.2 ⟨' ', hmem, by decide⟩
  cases mn <;> revert this <;> decide

/-- The reading of a piece without spaces from the right collects it in front. -/
theorem tokens_fold {t rest : List Char} {acc : List Char × List (List Char)} (h : ' ' ∉ t)
    (e : rest.foldr (fun ch acc =>
      if ch = ' ' then (([] : List Char), if acc.1 = [] then acc.2 else acc.1 :: acc.2)
      else (ch :: acc.1, acc.2)) ([], []) = acc) :
    (t ++ rest).foldr (fun ch acc =>
      if ch = ' ' then (([] : List Char), if acc.1 = [] then acc.2 else acc.1 :: acc.2)
      else (ch :: acc.1, acc.2)) ([], []) = (t ++ acc.1, acc.2) := by
  induction t with
  | nil => simpa using e
  | cons ch t ih =>
    simp only [List.mem_cons, not_or] at h
    rw [List.cons_append, List.foldr_cons, ih h.2, if_neg (Ne.symm h.1)]
    rfl

/-- Two pieces with one space between them are two tokens. -/
theorem tokens_pair {t l : List Char} (ht : ' ' ∉ t) (hl : ' ' ∉ l) (ht0 : t ≠ []) (hl0 : l ≠ []) :
    tokens (t ++ ' ' :: l) = [t, l] := by
  have e := tokens_fold (rest := []) hl rfl
  simp only [List.append_nil] at e
  have e' := tokens_fold (rest := ' ' :: l) ht rfl
  rw [List.foldr_cons, e] at e'
  simp only [tokens, e']
  simp [ht0, hl0]

end Sys2Proof.Machine
end

