-- ==== Sys2Proof/Laws/Operands.lean ====
section
/-! SUPPORT. The conversions of 00_scope.md R9 and the fields of a command word. -/

namespace Sys2Proof.Machine

/-- `s16` in terms of the pattern's number. -/
theorem s16_eq (p : Half) :
    s16 p = if p.toNat < 32768 then (p.toNat : Int) else (p.toNat : Int) - 65536 := by
  have := p.isLt
  have hb : p.getLsbD 15 = decide (32768 ≤ p.toNat) := by
    rw [BitVec.getLsbD, Nat.testBit_eq_decide_div_mod_eq]
    exact decide_eq_decide.mpr (by omega)
  rw [s16, hb]
  by_cases h : p.toNat < 32768
  · rw [if_pos h, if_neg (by simpa using h)]
  · rw [if_neg h, if_pos (by simpa using h)]

/-- `s16` is the two's-complement reading of a pattern. -/
theorem s16_eq_toInt (p : Half) : s16 p = p.toInt := by
  rw [s16_eq, BitVec.toInt]
  by_cases h : p.toNat < 32768
  · rw [if_pos h, if_pos (by omega)]
  · rw [if_neg h, if_neg (by omega)]; rfl

/-- `s16` takes values in the sample range. -/
theorem s16_range (p : Half) : -32768 ≤ s16 p ∧ s16 p ≤ 32767 := by
  have := p.isLt
  rw [s16_eq]
  split <;> omega

/-- `s16(bits16(v)) = v` (R9). -/
theorem s16_bits16 {v : Int} (h0 : -32768 ≤ v) (h1 : v ≤ 32767) : s16 (bits16 v) = v := by
  rw [s16_eq_toInt, bits16, BitVec.toInt_ofInt, Int.bmod]
  split <;> omega

/-- `bits16(s16(p)) = p`. -/
@[simp] theorem bits16_s16 (p : Half) : bits16 (s16 p) = p := by
  rw [s16_eq_toInt, bits16, BitVec.ofInt_toInt]

/-- `zext_16` of a value that fits keeps it. -/
theorem zext16_toNat {v : Nat} (h : v < 65536) : (zext16 v).toNat = v := by
  rw [zext16, BitVec.toNat_ofNat, Nat.mod_eq_of_lt h]

/-- A result below 2^15 is read back by `s16` as it is. -/
theorem s16_zext16 {v : Nat} (h : v < 32768) : s16 (zext16 v) = v := by
  rw [s16_eq, zext16_toNat (by omega), if_pos h]

/-- The fields of a command word, as numbers (R39). -/
theorem rsvdField_toNat (w : Cmd) : (rsvdField w).toNat = w.toNat / 2 ^ 19 := by
  have := w.isLt
  rw [rsvdField, BitVec.extractLsb'_toNat, Nat.shiftRight_eq_div_pow]
  omega

theorem opField_toNat (w : Cmd) : (opField w).toNat = w.toNat / 2 ^ 16 % 8 := by
  rw [opField, BitVec.extractLsb'_toNat, Nat.shiftRight_eq_div_pow]

theorem dataField_toNat (w : Cmd) : (dataField w).toNat = w.toNat % 2 ^ 16 := by
  rw [dataField, BitVec.extractLsb'_toNat, Nat.shiftRight_zero]

theorem codeField_toNat (d : Half) : (codeField d).toNat = d.toNat % 256 := by
  rw [codeField, BitVec.extractLsb'_toNat, Nat.shiftRight_zero]

theorem ignoredField_toNat (d : Half) : (ignoredField d).toNat = d.toNat / 256 := by
  have := d.isLt
  rw [ignoredField, BitVec.extractLsb'_toNat, Nat.shiftRight_eq_div_pow]
  omega

/-- The number of a command word built from its fields. -/
theorem commandWord_toNat (op : BitVec 3) (d : Half) :
    (commandWord op d).toNat = op.toNat * 2 ^ 16 + d.toNat := by
  have hd := d.isLt
  rw [commandWord, BitVec.toNat_append, BitVec.toNat_append, Nat.shiftLeft_eq,
    ← Nat.shiftLeft_eq, ← Nat.shiftLeft_add_eq_or_of_lt hd, Nat.shiftLeft_eq]
  simp

/-- The fields of a command word built from its fields (R39). -/
@[simp] theorem rsvdField_commandWord (op : BitVec 3) (d : Half) :
    rsvdField (commandWord op d) = 0#13 := by
  have := op.isLt
  have := d.isLt
  apply BitVec.eq_of_toNat_eq
  rw [rsvdField_toNat, commandWord_toNat]
  simp only [BitVec.toNat_ofNat]
  omega

@[simp] theorem opField_commandWord (op : BitVec 3) (d : Half) :
    opField (commandWord op d) = op := by
  have := op.isLt
  have := d.isLt
  apply BitVec.eq_of_toNat_eq
  rw [opField_toNat, commandWord_toNat]
  omega

@[simp] theorem dataField_commandWord (op : BitVec 3) (d : Half) :
    dataField (commandWord op d) = d := by
  have := d.isLt
  apply BitVec.eq_of_toNat_eq
  rw [dataField_toNat, commandWord_toNat]
  omega

/-- The number of a decoder operand built from its two bytes. -/
theorem append_toNat (h c : Byte) : (h ++ c).toNat = h.toNat * 256 + c.toNat := by
  have hc := c.isLt
  rw [BitVec.toNat_append, ← Nat.shiftLeft_add_eq_or_of_lt hc, Nat.shiftLeft_eq]

/-- The two bytes of a decoder operand built from them. -/
@[simp] theorem codeField_append (h c : Byte) : codeField (h ++ c) = c := by
  have := c.isLt
  apply BitVec.eq_of_toNat_eq
  rw [codeField_toNat, append_toNat]
  omega

@[simp] theorem ignoredField_append (h c : Byte) : ignoredField (h ++ c) = h := by
  have := c.isLt
  apply BitVec.eq_of_toNat_eq
  rw [ignoredField_toNat, append_toNat]
  omega

/-- The signed byte container of a code carries the same 8 bits (30_encoding.md R47). -/
@[simp] theorem codeField_sext16 (c : Byte) : codeField (sext16 c) = c := by
  apply BitVec.eq_of_getLsbD_eq
  intro k hk
  simp [codeField, sext16, BitVec.getElem_signExtend, hk, show k < 16 by omega]

end Sys2Proof.Machine
end

