-- ==== Sys2Proof/Laws/Decode.lean ====
section
/-! SUPPORT. Everything the decode step can answer. -/

namespace Sys2Proof

open Sys2Proof.Machine

/-- The answers of the decode step, each with the fields that lead to it (30_encoding.md R46). -/
theorem decode_cases (w : Cmd) :
    (rsvdField w ≠ 0#13 ∧ decode w = .rsvdNonzero) ∨
    (rsvdField w = 0#13 ∧ opField w = 0#3 ∧ decode w = .instr (.alawEnc (s16 (dataField w)))) ∨
    (rsvdField w = 0#13 ∧ opField w = 1#3 ∧ decode w =
      .instr (.alawDec (ignoredField (dataField w)).toNat (codeField (dataField w)).toNat)) ∨
    (rsvdField w = 0#13 ∧ opField w = 2#3 ∧ decode w = .instr (.ulawEnc (s16 (dataField w)))) ∨
    (rsvdField w = 0#13 ∧ opField w = 3#3 ∧ decode w =
      .instr (.ulawDec (ignoredField (dataField w)).toNat (codeField (dataField w)).toNat)) ∨
    (rsvdField w = 0#13 ∧ opField w = 4#3 ∧ decode w = .instr (.segSearch (dataField w).toNat)) ∨
    (rsvdField w = 0#13 ∧ 5 ≤ (opField w).toNat ∧ decode w = .opReserved) := by
  by_cases hr : rsvdField w = 0#13
  · by_cases h0 : opField w = 0#3
    · simp [decode, hr, h0]
    by_cases h1 : opField w = 1#3
    · simp [decode, hr, h1]
    by_cases h2 : opField w = 2#3
    · simp [decode, hr, h2]
    by_cases h3 : opField w = 3#3
    · simp [decode, hr, h3]
    by_cases h4 : opField w = 4#3
    · simp [decode, hr, h4]
    have hge : 5 ≤ (opField w).toNat := by
      have hlt := (opField w).isLt
      simp only [← BitVec.toNat_inj, BitVec.toNat_ofNat] at h0 h1 h2 h3 h4
      omega
    simp [decode, hr, h0, h1, h2, h3, h4, hge]
  · simp [decode, hr]

/-- A decoded command has its operands in range. -/
theorem wellFormed_of_decode {w : Cmd} {i : Instr} (h : decode w = .instr i) :
    i.wellFormed = true := by
  have hs := s16_range (dataField w)
  have hm := (dataField w).isLt
  have hc := (codeField (dataField w)).isLt
  have hh := (ignoredField (dataField w)).isLt
  rcases decode_cases w with ⟨_, e⟩ | ⟨_, _, e⟩ | ⟨_, _, e⟩ | ⟨_, _, e⟩ | ⟨_, _, e⟩ | ⟨_, _, e⟩ |
      ⟨_, _, e⟩ <;> rw [e] at h <;> cases h <;>
    simp only [Instr.wellFormed, isSample, isByte, isMagnitude, Bool.and_eq_true, decide_eq_true_eq] <;>
    omega

/-- A word is legal exactly when the decode step answers a command. -/
theorem legalWord_iff (w : Cmd) : legalWord w = true ↔ ∃ i, decode w = .instr i := by
  cases h : decode w <;> simp [legalWord, h]

end Sys2Proof
end

