-- ==== Sys2Proof/Laws/State.lean ====
section
/-! SUPPORT. What each field of the state is after each named update. -/

namespace Sys2Proof.Machine.State

variable (s : State)

@[simp] theorem setIll_result : s.setIll.result = s.result := rfl
@[simp] theorem setIll_ill : s.setIll.ill = true := rfl
@[simp] theorem setIll_config : s.setIll.config = s.config := rfl
@[simp] theorem setIll_inputs : s.setIll.inputs = s.inputs := rfl
@[simp] theorem setIll_reads : s.setIll.reads = s.reads := rfl
@[simp] theorem setIll_arrays : s.setIll.arrays = s.arrays := rfl
@[simp] theorem setIll_powerUps : s.setIll.powerUps = s.powerUps := rfl

@[simp] theorem raiseIllegalCommand_result : s.raiseIllegalCommand.result = s.result := rfl
@[simp] theorem raiseIllegalCommand_ill : s.raiseIllegalCommand.ill = true := rfl
@[simp] theorem raiseIllegalCommand_config : s.raiseIllegalCommand.config = s.config := rfl
@[simp] theorem raiseIllegalCommand_inputs : s.raiseIllegalCommand.inputs = s.inputs := rfl
@[simp] theorem raiseIllegalCommand_reads : s.raiseIllegalCommand.reads = s.reads := rfl
@[simp] theorem raiseIllegalCommand_arrays : s.raiseIllegalCommand.arrays = s.arrays := rfl
@[simp] theorem raiseIllegalCommand_powerUps : s.raiseIllegalCommand.powerUps = s.powerUps := rfl

@[simp] theorem writeResult_result (p : Half) : (s.writeResult p).result = p := rfl
@[simp] theorem writeResult_ill (p : Half) : (s.writeResult p).ill = s.ill := rfl
@[simp] theorem writeResult_config (p : Half) : (s.writeResult p).config = s.config := rfl
@[simp] theorem writeResult_inputs (p : Half) : (s.writeResult p).inputs = s.inputs := rfl
@[simp] theorem writeResult_reads (p : Half) : (s.writeResult p).reads = s.reads := rfl
@[simp] theorem writeResult_arrays (p : Half) : (s.writeResult p).arrays = s.arrays := rfl
@[simp] theorem writeResult_powerUps (p : Half) : (s.writeResult p).powerUps = s.powerUps := rfl

@[simp] theorem resetCore_result : s.resetCore.result = 0x0000#16 := rfl
@[simp] theorem resetCore_ill : s.resetCore.ill = false := rfl
@[simp] theorem resetCore_config : s.resetCore.config = s.config := rfl
@[simp] theorem resetCore_inputs : s.resetCore.inputs = s.inputs := rfl
@[simp] theorem resetCore_reads : s.resetCore.reads = s.reads := rfl
@[simp] theorem resetCore_arrays : s.resetCore.arrays = s.arrays := rfl
@[simp] theorem resetCore_powerUps : s.resetCore.powerUps = s.powerUps := rfl

@[simp] theorem powerCycle_result (d : Nat) : (s.powerCycle d).result = Config.powerUpResult d s.powerUps := rfl
@[simp] theorem powerCycle_ill (d : Nat) : (s.powerCycle d).ill = Config.powerUpIll d s.powerUps := rfl
@[simp] theorem powerCycle_config (d : Nat) : (s.powerCycle d).config = s.config := rfl
@[simp] theorem powerCycle_inputs (d : Nat) : (s.powerCycle d).inputs = s.inputs := rfl
@[simp] theorem powerCycle_reads (d : Nat) : (s.powerCycle d).reads = s.reads := rfl
@[simp] theorem powerCycle_arrays (d : Nat) : (s.powerCycle d).arrays = s.arrays := rfl
@[simp] theorem powerCycle_powerUps (d : Nat) : (s.powerCycle d).powerUps = s.powerUps + 1 := rfl

@[simp] theorem logRead_result (v : HostRead) : (s.logRead v).result = s.result := rfl
@[simp] theorem logRead_ill (v : HostRead) : (s.logRead v).ill = s.ill := rfl
@[simp] theorem logRead_config (v : HostRead) : (s.logRead v).config = s.config := rfl
@[simp] theorem logRead_inputs (v : HostRead) : (s.logRead v).inputs = s.inputs := rfl
@[simp] theorem logRead_reads (v : HostRead) : (s.logRead v).reads = s.reads ++ [v] := rfl
@[simp] theorem logRead_arrays (v : HostRead) : (s.logRead v).arrays = s.arrays := rfl
@[simp] theorem logRead_powerUps (v : HostRead) : (s.logRead v).powerUps = s.powerUps := rfl

@[simp] theorem withInputs_result (as : List HostAct) : (s.withInputs as).result = s.result := rfl
@[simp] theorem withInputs_ill (as : List HostAct) : (s.withInputs as).ill = s.ill := rfl
@[simp] theorem withInputs_config (as : List HostAct) : (s.withInputs as).config = s.config := rfl
@[simp] theorem withInputs_inputs (as : List HostAct) : (s.withInputs as).inputs = as := rfl
@[simp] theorem withInputs_reads (as : List HostAct) : (s.withInputs as).reads = s.reads := rfl
@[simp] theorem withInputs_arrays (as : List HostAct) : (s.withInputs as).arrays = s.arrays := rfl
@[simp] theorem withInputs_powerUps (as : List HostAct) : (s.withInputs as).powerUps = s.powerUps := rfl

@[simp] theorem push_result (a : HostAct) : (s.push a).result = s.result := rfl
@[simp] theorem push_ill (a : HostAct) : (s.push a).ill = s.ill := rfl
@[simp] theorem push_config (a : HostAct) : (s.push a).config = s.config := rfl
@[simp] theorem push_inputs (a : HostAct) : (s.push a).inputs = a :: s.inputs := rfl
@[simp] theorem push_reads (a : HostAct) : (s.push a).reads = s.reads := rfl
@[simp] theorem push_arrays (a : HostAct) : (s.push a).arrays = s.arrays := rfl
@[simp] theorem push_powerUps (a : HostAct) : (s.push a).powerUps = s.powerUps := rfl

@[simp] theorem withArrays_result (bs : List HostArray) : (s.withArrays bs).result = s.result := rfl
@[simp] theorem withArrays_ill (bs : List HostArray) : (s.withArrays bs).ill = s.ill := rfl
@[simp] theorem withArrays_config (bs : List HostArray) : (s.withArrays bs).config = s.config := rfl
@[simp] theorem withArrays_inputs (bs : List HostArray) : (s.withArrays bs).inputs = s.inputs := rfl
@[simp] theorem withArrays_reads (bs : List HostArray) : (s.withArrays bs).reads = s.reads := rfl
@[simp] theorem withArrays_arrays (bs : List HostArray) : (s.withArrays bs).arrays = bs := rfl
@[simp] theorem withArrays_powerUps (bs : List HostArray) : (s.withArrays bs).powerUps = s.powerUps := rfl

/-- Taking the pushed action off again gives the state back. -/
@[simp] theorem push_withInputs (a : HostAct) : (s.push a).withInputs s.inputs = s := rfl

/-- Replacing the inputs twice keeps the second. -/
@[simp] theorem withInputs_withInputs (as bs : List HostAct) :
    (s.withInputs as).withInputs bs = s.withInputs bs := rfl

/-- A state with its own inputs is itself. -/
@[simp] theorem withInputs_self : s.withInputs s.inputs = s := rfl

/-- STATUS as a number: 1 when ILL is set, else 0. -/
theorem status_eq : s.status = if s.ill then 1#16 else 0#16 := by
  cases h : s.ill <;> simp [status, h]

end Sys2Proof.Machine.State
end

