-- ==== Sys2Proof/Laws/Ops.lean ====
section
/-! SUPPORT. What the accesses to host arrays can do. -/

namespace Sys2Proof.Machine

/-- A write keeps the array's length: nothing grows. -/
theorem memWrite_len {b b' : HostArray} {i : Nat} {v : Element} (h : b.memWrite i v = some b') :
    b'.len = b.len := by
  cases b <;> cases v <;> simp only [HostArray.memWrite] at h
  all_goals first
    | (split at h
       · cases h; simp [HostArray.len]
       · cases h)
    | cases h

/-- A write succeeds only inside the array. -/
theorem memWrite_index_lt {b b' : HostArray} {i : Nat} {v : Element}
    (h : b.memWrite i v = some b') : i < b.len := by
  cases b <;> cases v <;> simp only [HostArray.memWrite] at h
  all_goals first
    | (split at h
       · assumption
       · cases h)
    | cases h

/-- A read after a write to the same element gives the value written. -/
theorem memRead_memWrite_same {b b' : HostArray} {i : Nat} {v : Element}
    (h : b.memWrite i v = some b') : b'.memRead i = some v := by
  cases b <;> cases v <;> simp only [HostArray.memWrite] at h
  all_goals first
    | (split at h
       · rename_i hi; cases h; simp [HostArray.memRead, hi]
       · cases h)
    | cases h

/-- A write leaves every other element alone. -/
theorem memRead_memWrite_other {b b' : HostArray} {i j : Nat} {v : Element}
    (h : b.memWrite i v = some b') (hij : i ≠ j) : b'.memRead j = b.memRead j := by
  cases b <;> cases v <;> simp only [HostArray.memWrite] at h
  all_goals first
    | (split at h
       · cases h; simp [HostArray.memRead, hij]
       · cases h)
    | cases h

end Sys2Proof.Machine
end

