-- ==== Sys2Proof/Laws/PerInstr.lean ====
section
/-! SUPPORT. Facts about every command as syntax, one lemma per constructor. -/

namespace Sys2Proof.Laws.EncodedFields

open Sys2Proof.Machine

/-- The encoded word has RSVD 0, the command's OP and the command's DATA (30_encoding.md R39). -/
def Statement (i : Instr) : Prop :=
  rsvdField (encode i) = 0#13 ∧ opField (encode i) = opOf i ∧ dataField (encode i) = dataOf i

/-- The fields of any encoded word. -/
theorem all (i : Instr) : Statement i :=
  ⟨rsvdField_commandWord _ _, opField_commandWord _ _, dataField_commandWord _ _⟩

theorem alawEnc (x : Int) : Statement (.alawEnc x) := all _
theorem alawDec (hi c : Nat) : Statement (.alawDec hi c) := all _
theorem ulawEnc (x : Int) : Statement (.ulawEnc x) := all _
theorem ulawDec (hi c : Nat) : Statement (.ulawDec hi c) := all _
theorem segSearch (m : Nat) : Statement (.segSearch m) := all _

end Sys2Proof.Laws.EncodedFields
end

