-- ==== Sys2Proof/Laws/Step.lean ====
section
/-! SUPPORT. What a step can do, said once: on the empty input list, on each host action, and to the
core's registers. -/

namespace Sys2Proof.Machine

/-- With something to do, a step performs the oldest action. -/
theorem step_cons {s : State} {a : HostAct} {as : List HostAct} (h : s.inputs = a :: as) :
    step s = perform a (s.withInputs as) := by
  rw [step, advance, h]

/-- With nothing to do, a step changes nothing. -/
theorem step_nil {s : State} (h : s.inputs = []) : step s = .next s := by
  rw [step, advance, h]

/-- A pushed action is performed next. -/
@[simp] theorem step_push (s : State) (a : HostAct) : step (s.push a) = perform a s :=
  step_cons rfl

/-- Every command writes its value to RESULT and nothing else. -/
theorem exec_eq (i : Instr) (s : State) :
    exec i s = .next (s.writeResult (resultValue s.config i)) := by
  cases i <;> rfl

/-- A transaction writes a value to RESULT or sets ILL. -/
theorem transact_cases (w : Cmd) (s : State) :
    (∃ i, decode w = .instr i ∧ transact w s = .next (s.writeResult (resultValue s.config i))) ∨
    (legalWord w = false ∧ transact w s = .next s.raiseIllegalCommand) := by
  cases h : decode w with
  | instr i => exact .inl ⟨i, rfl, by simp only [transact, h, exec_eq]⟩
  | rsvdNonzero => exact .inr ⟨by simp only [legalWord, h], by simp only [transact, h]⟩
  | opReserved => exact .inr ⟨by simp only [legalWord, h], by simp only [transact, h]⟩

/-- What a host action that goes through can do to the core's registers and build. -/
theorem perform_core {a : HostAct} {s t : State} (h : perform a s = .next t) :
    t.config = s.config ∧
    ((t.result = s.result ∧ t.ill = s.ill) ∨
     (∃ w i, a = .issue w ∧ decode w = .instr i ∧ t.result = resultValue s.config i ∧ t.ill = s.ill) ∨
     (∃ w, a = .issue w ∧ legalWord w = false ∧ t.result = s.result ∧ t.ill = true) ∨
     (∃ ws, a = .reset ws ∧ t.result = 0x0000#16 ∧ t.ill = false) ∨
     (∃ d, a = .powerCycle d ∧ t = s.powerCycle d)) := by
  cases a with
  | issue w =>
    rcases transact_cases w s with ⟨i, hi, e⟩ | ⟨hw, e⟩ <;> rw [perform, e] at h <;> cases h
    · exact ⟨rfl, .inr (.inl ⟨w, i, rfl, hi, rfl, rfl⟩)⟩
    · exact ⟨rfl, .inr (.inr (.inl ⟨w, rfl, hw, rfl, rfl⟩))⟩
  | readResult => cases h; exact ⟨rfl, .inl ⟨rfl, rfl⟩⟩
  | readStatus => cases h; exact ⟨rfl, .inl ⟨rfl, rfl⟩⟩
  | reset ws => cases h; exact ⟨rfl, .inr (.inr (.inr (.inl ⟨ws, rfl, rfl, rfl⟩)))⟩
  | powerCycle d => cases h; exact ⟨rfl, .inr (.inr (.inr (.inr ⟨d, rfl, rfl⟩)))⟩
  | batch wr cc inp out n =>
    simp only [perform, startBatch] at h
    repeat' split at h
    all_goals cases h
    exact ⟨rfl, .inl ⟨rfl, rfl⟩⟩
  | iterate wr cc inp out todo =>
    simp only [perform, iterateBatch] at h
    repeat' split at h
    all_goals cases h
    all_goals exact ⟨rfl, .inl ⟨rfl, rfl⟩⟩
  | store wr out i =>
    simp only [perform, storeResult] at h
    repeat' split at h
    all_goals cases h
    exact ⟨rfl, .inl ⟨rfl, rfl⟩⟩

/-- No host action adds a loss of power to the pending actions. -/
theorem perform_powerStays {a : HostAct} {s t : State} (h : perform a s = .next t)
    (hp : s.powerStays = true) : t.powerStays = true := by
  cases a with
  | issue w =>
    rcases transact_cases w s with ⟨i, _, e⟩ | ⟨_, e⟩ <;> rw [perform, e] at h <;> cases h <;> exact hp
  | readResult => cases h; exact hp
  | readStatus => cases h; exact hp
  | reset ws => cases h; exact hp
  | powerCycle d => cases h; exact hp
  | batch wr cc inp out n =>
    simp only [perform, startBatch] at h
    repeat' split at h
    all_goals cases h
    simpa [State.powerStays, HostAct.losesPower] using hp
  | iterate wr cc inp out todo =>
    simp only [perform, iterateBatch] at h
    repeat' split at h
    all_goals cases h
    · exact hp
    · simpa [State.powerStays, HostAct.losesPower] using hp
  | store wr out i =>
    simp only [perform, storeResult] at h
    repeat' split at h
    all_goals cases h
    exact hp

/-- `k + 1` steps are one step and then `k`. -/
theorem run_succ {s t : State} (k : Nat) (h : step s = .next t) : run (k + 1) s = run k t := by
  simp only [run, Host.Core.run, Sys2Proof.core, h]

/-- No step at all. -/
@[simp] theorem run_zero (s : State) : run 0 s = .next s := rfl

/-- `j + k` steps are `j` steps and then `k`. -/
theorem run_add {j k : Nat} {s t : State} (h : run j s = .next t) : run (j + k) s = run k t := by
  induction j generalizing s with
  | zero => cases h; rw [Nat.zero_add]
  | succ j ih =>
    rw [Nat.add_right_comm]
    cases e : step s with
    | next u =>
      rw [run_succ j e] at h
      rw [run_succ (j + k) e]
      exact ih h
    | fault r => simp only [run, Host.Core.run, Sys2Proof.core, e] at h; cases h
    | refused r => simp only [run, Host.Core.run, Sys2Proof.core, e] at h; cases h

end Sys2Proof.Machine
end

