-- ==== Sys2Proof/Laws/Platform.lean ====
section
/-! SUPPORT. What a step of a platform, of a host shared between instances, and the call of a batch
wrapper can do, each said once. -/

namespace Sys2Proof.Machine

/-- A platform step that goes through is a step of one of its instances. -/
theorem platform_step_cases {k : Nat} {p q : Platform} (h : Platform.step k p = .next q) :
    ∃ s t, p[k]? = some s ∧ step s = .next t ∧ q = p.set k t := by
  cases hk : p[k]? with
  | none => simp only [Platform.step, hk] at h; cases h
  | some s =>
    cases hs : step s with
    | next t => simp only [Platform.step, hk, hs] at h; cases h; exact ⟨s, t, rfl, hs, rfl⟩
    | fault r => simp only [Platform.step, hk, hs] at h; cases h
    | refused r => simp only [Platform.step, hk, hs] at h; cases h

/-- A step of a shared host that goes through is a step of one instance on the shared arrays; that
instance's own arrays and every other instance stay. -/
theorem sharedHost_step_cases {k : Nat} {h h' : SharedHost} (e : h.step k = .next h') :
    ∃ s t, h.instances[k]? = some s ∧ step (s.withArrays h.arrays) = .next t ∧
      h' = ⟨h.instances.set k (t.withArrays s.arrays), t.arrays⟩ := by
  cases hk : h.instances[k]? with
  | none => simp only [SharedHost.step, hk] at e; cases e
  | some s =>
    cases hs : step (s.withArrays h.arrays) with
    | next t => simp only [SharedHost.step, hk, hs] at e; cases e; exact ⟨s, t, rfl, hs, rfl⟩
    | fault r => simp only [SharedHost.step, hk, hs] at e; cases e
    | refused r => simp only [SharedHost.step, hk, hs] at e; cases e

/-- The other direction: a step of an instance on the shared arrays is a step of the shared host. -/
theorem sharedHost_step {k : Nat} {h : SharedHost} {s t : State} (hk : h.instances[k]? = some s)
    (hs : step (s.withArrays h.arrays) = .next t) :
    h.step k = .next ⟨h.instances.set k (t.withArrays s.arrays), t.arrays⟩ := by
  simp only [SharedHost.step, hk, hs]

/-- An empty schedule does nothing. -/
@[simp] theorem sharedHost_run_nil (h : SharedHost) : SharedHost.run [] h = .next h := rfl

/-- A schedule is its first step and then the rest. -/
theorem sharedHost_run_cons {k : Nat} {ks : List Nat} {h h' : SharedHost} (e : h.step k = .next h') :
    SharedHost.run (k :: ks) h = SharedHost.run ks h' := by
  simp only [SharedHost.run, e]

/-- A schedule in two pieces is the first and then the second. -/
theorem sharedHost_run_append {js ks : List Nat} {h h' : SharedHost}
    (e : SharedHost.run js h = .next h') :
    SharedHost.run (js ++ ks) h = SharedHost.run ks h' := by
  induction js generalizing h with
  | nil => cases e; rfl
  | cons j js ih =>
    cases hj : h.step j with
    | next u => rw [sharedHost_run_cons hj] at e; rw [List.cons_append, sharedHost_run_cons hj, ih e]
    | fault r => simp only [SharedHost.run, hj] at e; cases e
    | refused r => simp only [SharedHost.run, hj] at e; cases e

/-- An idle instance's step changes nothing. -/
theorem sharedHost_step_idle {k : Nat} {h : SharedHost} {s : State} (hk : h.instances[k]? = some s)
    (hs : s.inputs = []) : h.step k = .next h := by
  rw [sharedHost_step hk (step_nil (s := s.withArrays h.arrays) hs)]
  obtain ⟨hlt, he⟩ := List.getElem?_eq_some_iff.1 hk
  show Host.Outcome.next (SharedHost.mk (h.instances.set k s) h.arrays) = _
  rw [← he, List.set_getElem_self]

/-- The precondition of a batch call holds exactly for two different arrays of the wrapper's element
types with at least `n` elements each. -/
theorem checkBatch_eq_none {wr : Wrapper} {inp out : Nat} {n : Int} {arrays : List HostArray} :
    checkBatch wr inp out n arrays = none ↔
      inp ≠ out ∧ ∃ a b, arrays[inp]? = some a ∧ arrays[out]? = some b ∧
        wr.inKind a = true ∧ wr.outKind b = true ∧ n ≤ a.len ∧ n ≤ b.len := by
  by_cases hio : inp = out
  · simp [checkBatch, hio]
  · cases ha : arrays[inp]? <;> cases hb : arrays[out]? <;> simp [checkBatch, hio, ha, hb]
    rename_i a b
    cases wr.inKind a <;> cases wr.outKind b <;> simp

/-- The output conversion has a value exactly for the arrays of the wrapper's output type. -/
theorem convOut_isSome (wr : Wrapper) (b : HostArray) (r : Half) :
    (wr.convOut b r).isSome = wr.outKind b := by
  cases wr <;> cases b <;> rfl

/-- The input conversion has a value for every element of an array of the wrapper's input type. -/
theorem convIn_isSome {wr : Wrapper} {a : HostArray} {i : Nat} {e : Element} (cc : CodeContainer)
    (h : a.memRead i = some e) : (wr.convIn cc e).isSome = wr.inKind a := by
  cases a <;> (obtain ⟨_, _, rfl⟩ := Option.map_eq_some_iff.1 h) <;> cases wr <;> rfl

/-- A converted result has the element type of its array, so inside the array its store succeeds. -/
theorem memWrite_convOut {wr : Wrapper} {b : HostArray} {r : Half} {v : Element} {i : Nat}
    (h : wr.convOut b r = some v) (hi : i < b.len) : ∃ b', b.memWrite i v = some b' := by
  cases wr <;> cases b <;> cases h <;> exact ⟨_, if_pos hi⟩

/-- A batch call whose precondition holds goes on with the loop over all indices. -/
theorem startBatch_eq_next {wr : Wrapper} {cc : CodeContainer} {inp out : Nat} {n : Int} {s : State}
    (h : checkBatch wr inp out n s.arrays = none) :
    startBatch wr cc inp out n s = .next (s.push (.iterate wr cc inp out (List.range n.toNat))) := by
  simp only [startBatch, h]

/-- A split call that goes through gives the parts to the instances; the arrays stay. -/
theorem startSplit_eq_next {wr : Wrapper} {cc : CodeContainer} {inp out : Nat} {n : Int}
    {parts : List (List Nat)} {h : SharedHost} (hc : checkBatch wr inp out n h.arrays = none)
    (hl : parts.length ≤ h.instances.length) (hp : parts.flatten.Perm (List.range n.toNat)) :
    h.startSplit wr cc inp out n parts =
      .next ⟨assignParts wr cc inp out parts h.instances, h.arrays⟩ := by
  have hp' : parts.flatten.isPerm (List.range n.toNat) = true := List.isPerm_iff.2 hp
  simp [SharedHost.startSplit, hc, hl, hp']

/-- Giving out the parts leaves the number of instances. -/
theorem assignParts_length {wr : Wrapper} {cc : CodeContainer} {inp out : Nat}
    {parts : List (List Nat)} {p : Platform} (hl : parts.length ≤ p.length) :
    (assignParts wr cc inp out parts p).length = p.length := by
  induction parts generalizing p with
  | nil => rfl
  | cons part parts ih =>
    cases p with
    | nil => simp at hl
    | cons s ss => simpa [assignParts] using ih (by simpa using hl)

/-- One iteration's call: the element read becomes a command, then the store, then the rest. -/
theorem iterateBatch_cons {wr : Wrapper} {cc : CodeContainer} {inp out i : Nat} {is : List Nat}
    {s : State} {a : HostArray} {e : Element} {d : Half} (ha : s.arrays[inp]? = some a)
    (he : a.memRead i = some e) (hd : wr.convIn cc e = some d) :
    iterateBatch wr cc inp out (i :: is) s =
      .next (((s.push (.iterate wr cc inp out is)).push (.store wr out i)).push
        (.issue (commandWord wr.op d))) := by
  simp only [iterateBatch, ha, he, hd]

/-- The store of an iteration inside the output array. -/
theorem storeResult_eq_next {wr : Wrapper} {out i : Nat} {s : State} {b b' : HostArray}
    {v : Element} (hb : s.arrays[out]? = some b) (hv : wr.convOut b s.result = some v)
    (hw : b.memWrite i v = some b') :
    storeResult wr out i s = .next (s.readResult.withArrays (s.arrays.set out b')) := by
  simp only [storeResult, hb, hv, hw]

end Sys2Proof.Machine
end

