-- ==== Sys2Proof/Laws/Segment.lean ====
section
/-! SUPPORT. The segment search as one chain of comparisons. -/

namespace Sys2Proof.Machine

/-- `seg` written out: the form in which `split` and `omega` settle facts about it. -/
theorem seg_eq (m : Nat) : seg m =
    if m ≤ 255 then 0 else if m ≤ 511 then 1 else if m ≤ 1023 then 2 else if m ≤ 2047 then 3
    else if m ≤ 4095 then 4 else if m ≤ 8191 then 5 else if m ≤ 16383 then 6
    else if m ≤ 32767 then 7 else 8 := by
  simp only [seg, scan, boundary]
  repeat' split
  all_goals rfl

/-- The search never answers more than its sentinel. -/
theorem seg_le_eight (m : Nat) : seg m ≤ 8 := by
  rw [seg_eq]
  repeat' split
  all_goals omega

/-- A larger magnitude passes at least as many boundaries of any table. -/
theorem scan_mono {m n : Nat} (h : m ≤ n) (bs : List Nat) : scan m bs ≤ scan n bs := by
  induction bs with
  | nil => exact le_rfl
  | cons b bs ih =>
    simp only [scan]
    split <;> split <;> omega

/-- Larger magnitudes never have a smaller segment. -/
theorem seg_mono {m n : Nat} (h : m ≤ n) : seg m ≤ seg n := scan_mono h boundary

/-- A magnitude of 15 bits is inside the table. -/
theorem seg_le_seven {m : Nat} (h : m ≤ 32767) : seg m ≤ 7 :=
  (seg_mono h).trans (by decide)

end Sys2Proof.Machine
end

