-- ==== Sys2Proof/Tests/Slice0.lean ====
section
/-! SUPPORT. The model's own tests, with their expected values taken from spec/ (mostly
95_test_vectors.md), and for every statement a concrete case that meets its hypotheses. -/

namespace Sys2Proof.Tests

open Sys2Proof.Machine

/-- A small state: RESULT 0x1234 as in 95_test_vectors.md section 2.10. -/
def start : State := { State.reset with result := 0x1234#16 }

/-- The same state of a build with the other decoder rule. -/
def startDoc : State := { start with config := ⟨.docLiteral⟩ }

/-- RESULT after one step on an issued word; none where the step does not go on. -/
def resultOf (s : State) (w : Cmd) : Option Half :=
  match step (s.push (.issue w)) with
  | .next t => some t.result
  | .fault _ => none
  | .refused _ => none

/-- STATUS after one step on an issued word. -/
def statusOf (s : State) (w : Cmd) : Option Half :=
  match step (s.push (.issue w)) with
  | .next t => some t.status
  | .fault _ => none
  | .refused _ => none

/-! ### Decoding, each word written from the encoding rows of 30_encoding.md section 3 -/

theorem test_decode_alawEnc :
    decode 0b00000000000000000000001111101000#32 = .instr (.alawEnc 1000) := by decide
theorem test_decode_alawDec :
    decode 0b00000000000000011111111111111010#32 = .instr (.alawDec 0xFF 0xFA) := by decide
theorem test_decode_ulawEnc :
    decode 0b00000000000000101000000000000000#32 = .instr (.ulawEnc (-32768)) := by decide
theorem test_decode_ulawDec :
    decode 0b00000000000000110001001000000000#32 = .instr (.ulawDec 0x12 0x00) := by decide
theorem test_decode_segSearch :
    decode 0b00000000000001001000000000000001#32 = .instr (.segSearch 32769) := by decide
theorem test_decode_op5 : decode 0x00050000#32 = .opReserved := by decide
theorem test_decode_op7 : decode 0x0007FFFF#32 = .opReserved := by decide
theorem test_decode_rsvd19 : decode 0x000C0000#32 = .rsvdNonzero := by decide
theorem test_decode_rsvd31 : decode 0x80000000#32 = .rsvdNonzero := by decide
theorem test_encode_alawEnc : encode (.alawEnc (-1)) = 0x0000FFFF#32 := by decide
theorem test_encode_ulawDec : encode (.ulawDec 0x12 0) = 0x00031200#32 := by decide
theorem test_decodeTableWord : decodeTableWord 32 0x000400FF = some (.segSearch 0xFF) := by decide
theorem test_decodeTableWord_illegal : decodeTableWord 32 0x00050000 = none := by decide

/-! ### WellFormed refuses each operand out of its range -/

theorem test_wellFormed_alawEnc_high : (Instr.alawEnc 32768).wellFormed = false := by decide
theorem test_wellFormed_alawEnc_low : (Instr.alawEnc (-32769)).wellFormed = false := by decide
theorem test_wellFormed_alawDec_code : (Instr.alawDec 0 256).wellFormed = false := by decide
theorem test_wellFormed_alawDec_high : (Instr.alawDec 256 0).wellFormed = false := by decide
theorem test_wellFormed_ulawEnc_high : (Instr.ulawEnc 32768).wellFormed = false := by decide
theorem test_wellFormed_ulawEnc_low : (Instr.ulawEnc (-32769)).wellFormed = false := by decide
theorem test_wellFormed_ulawDec_code : (Instr.ulawDec 0 256).wellFormed = false := by decide
theorem test_wellFormed_ulawDec_high : (Instr.ulawDec 256 0).wellFormed = false := by decide
theorem test_wellFormed_segSearch : (Instr.segSearch 65536).wellFormed = false := by decide
theorem test_wellFormed_extremes :
    (Instr.alawEnc (-32768)).wellFormed && (Instr.ulawEnc 32767).wellFormed &&
      (Instr.alawDec 255 255).wellFormed && (Instr.segSearch 65535).wellFormed = true := by decide

/-! ### One step per test, from 95_test_vectors.md -/

/-- Section 2.2, and the clamp's corner S3. -/
theorem test_alawEnc_negative : resultOf start 0x0000FC18#32 = some 0x007A#16 := by decide
theorem test_alawEnc_lowest : resultOf start 0x00008000#32 = some 0x002A#16 := by decide
/-- P1 and section 2.9. -/
theorem test_alawDec_negative : resultOf start 0x00010055#32 = some 0xFFF8#16 := by decide
theorem test_alawDec_highByte : resultOf start 0x00017FD5#32 = some 0x0008#16 := by decide
/-- Section 2.5: the bottom of segment 1, and m = 32768. -/
theorem test_ulawEnc_segment1 : resultOf start 0x0002007C#32 = some 0x00EF#16 := by decide
theorem test_ulawEnc_lowest : resultOf start 0x00028000#32 = some 0x0000#16 := by decide
/-- P2 under G711 and under DOC_LITERAL (1584). -/
theorem test_ulawDec_g711 : resultOf start 0x000300CE#32 = some 0x03DC#16 := by decide
theorem test_ulawDec_docLiteral : resultOf startDoc 0x000300CE#32 = some 0x0630#16 := by decide
/-- Section 2.1: the tie-break and the sentinel. -/
theorem test_segSearch_tie : resultOf start 0x000401FF#32 = some 0x0001#16 := by decide
theorem test_segSearch_sentinel : resultOf start 0x00048000#32 = some 0x0008#16 := by decide
/-- Section 2.10. -/
theorem test_illegal_result : resultOf start 0xFFFFFFFF#32 = some 0x1234#16 := by decide
theorem test_illegal_status : statusOf start 0x00060000#32 = some 0x0001#16 := by decide
/-- P3: a legal command performs while ILL is 1 and leaves it. -/
theorem test_legal_keeps_ill : statusOf start.setIll 0x00020000#32 = some 0x0001#16 := by decide
/-- P3's reset. -/
theorem test_reset : (start.setIll.resetCore).status = 0x0000#16 := by decide
/-- The fetch word is the next command. -/
theorem test_withFetchWord : step (start.withFetchWord 32 0x00040200) = .next { start with result := 2#16 } :=
  rfl
/-- R52, R53 and P5's disassembly. -/
theorem test_assemble_text : assembleText ['u', 'l', 'A', 'w', '_', 'e', 'n', 'c', ' ', '-', '4'] =
    some 0x0002FFFC#32 := by decide
theorem test_disassemble_text : (disassemble 0x0003FFCE#32).text =
    ['.', 'w', 'o', 'r', 'd', ' ', '0', 'x', '0', '0', '0', '3', 'F', 'F', 'C', 'E'] := by decide
theorem test_assemble_range : assemble (.cmd .alawDec (.dec 256)) = none := by decide

/-! ### A concrete case for the hypotheses of each statement -/

theorem witness_decodeOfEncode : (Instr.alawDec 255 0).wellFormed = true ∧
    decode (encode (.alawDec 255 0)) = .instr (.alawDec 255 0) := by decide
theorem witness_encodeOfDecode : decode 0x0004FFFF#32 = .instr (.segSearch 65535) ∧
    encode (.segSearch 65535) = 0x0004FFFF#32 := by decide
theorem witness_stepRunsTheDecodedCommand :
    (start.withInputs [.issue 0x00040100#32, .readStatus]).inputs = [.issue 0x00040100#32, .readStatus] ∧
    decode 0x00040100#32 = .instr (.segSearch 256) ∧
    step (start.withInputs [.issue 0x00040100#32, .readStatus]) =
      .next { start with result := 1#16, inputs := [.readStatus] } := ⟨rfl, by decide, rfl⟩
theorem witness_decodersIgnoreTheHighByte : (1#3 = 1#3 ∨ (1#3 : BitVec 3) = 3#3) ∧
    resultOf start (commandWord 1#3 (0xFF#8 ++ 0xD5#8)) = some 0x0008#16 := by decide
theorem witness_illegalWord_rsvd : (0x00080000#32).toNat / 2 ^ 19 ≠ 0 ∧
    statusOf start 0x00080000#32 = some 1#16 := by decide
theorem witness_illegalWord_op : (0x00050000#32).toNat / 2 ^ 19 = 0 ∧
    5 ≤ (0x00050000#32).toNat / 2 ^ 16 % 8 ∧ statusOf start 0x00050000#32 = some 1#16 := by decide
theorem witness_legalWord : (0x0004FFFF#32).toNat / 2 ^ 19 = 0 ∧
    (0x0004FFFF#32).toNat / 2 ^ 16 % 8 < 5 ∧ statusOf start 0x0004FFFF#32 = some 0#16 := by decide
theorem witness_illegalCommandRecordsCauseOne :
    legalWord 0x00050000#32 = false ∧ legalWord 0x80000000#32 = false := by decide
theorem witness_illSticky_illegal : legalWord 0x00050000#32 = false ∧
    step (start.push (.issue 0x00050000#32)) = .next start.setIll := ⟨by decide, rfl⟩
theorem witness_illSticky_kept : step (start.setIll.push (.issue 0x00040200#32)) =
    .next { start.setIll with result := 2#16 } ∧ start.setIll.ill = true := ⟨rfl, rfl⟩
theorem witness_illSticky_cleared : step (start.setIll.push (.reset [])) = .next start.setIll.resetCore ∧
    (start.setIll.push (.reset [])).ill = true ∧ start.setIll.resetCore.ill = false := ⟨rfl, rfl, rfl⟩
theorem witness_illSticky_legal : legalWord 0x00040200#32 = true := by decide
theorem witness_illegalCommandIsPrecise : legalWord 0xFFFFFFFF#32 = false ∧
    run 2 (start.withInputs [.issue 0x00040200#32, .issue 0xFFFFFFFF#32, .issue 0x00040100#32]) =
      .next { start with result := 2#16, ill := true, inputs := [.issue 0x00040100#32] } :=
  ⟨by decide, rfl⟩
theorem witness_cleanRun : start.clean = true ∧
    run 2 (start.withInputs [.issue 0x00040200#32, .issue 0x00050000#32]) =
      .next { start with result := 2#16, ill := true } := ⟨rfl, rfl⟩
theorem witness_resultDependsOnWordAndRuleOnly : legalWord 0x000300CE#32 = true ∧
    start.config.mulawDecodeRule = State.reset.setIll.config.mulawDecodeRule ∧
    resultOf start 0x000300CE#32 = resultOf State.reset.setIll 0x000300CE#32 := by decide
theorem witness_commandIdempotent :
    step (start.push (.issue 0x00050000#32)) = .next start.setIll ∧
    step (start.setIll.push (.issue 0x00050000#32)) = .next start.setIll := ⟨rfl, rfl⟩
theorem witness_idleHost : start.inputs = [] ∧ run 3 start = .next start := ⟨rfl, rfl⟩
theorem witness_decodeRuleFixed : step (startDoc.push (.powerCycle 3)) = .next (startDoc.powerCycle 3) ∧
    (startDoc.powerCycle 3).config = startDoc.config := ⟨rfl, rfl⟩
theorem witness_decodeRuleReadByUlawDecOnly :
    (∀ hi c, Instr.alawDec 0 0xD5 ≠ .ulawDec hi c) ∧
    exec (.alawDec 0 0xD5) startDoc = .next { startDoc with result := 8#16 } :=
  ⟨fun _ _ h => Instr.noConfusion h, rfl⟩
theorem witness_segment_top : (65535 : Nat) ≤ 65535 ∧ seg 65535 = 8 ∧ seg 32768 = 8 ∧ seg 32767 = 7 ∧
    seg 256 = 1 ∧ seg 255 = 0 := by decide
theorem witness_comparators : (comparators 256)[1]? = some true ∧ (comparators 256)[0]? = some false ∧
    (comparators 65535).count false = 8 := by decide
theorem witness_boundaries : boundary[7]? = some 32767 ∧ boundary[0]? = some 255 := by decide
theorem witness_encoderInputs_lowest : (-32768 : Int) ≤ -32768 ∧ ulawMagnitude (-32768) + 132 = 32900 ∧
    alawMagnitude (-32768) = 32767 := by decide
theorem witness_segSearch : (65535 : Nat) ≤ 65535 ∧
    exec (.segSearch 65535) start = .next { start with result := 8#16 } := ⟨by decide, rfl⟩
theorem witness_alawEnc : (-32768 : Int) ≤ -32768 ∧ (-32768 : Int) ≤ 32767 ∧
    exec (.alawEnc (-32768)) start = .next { start with result := 0x2A#16 } := ⟨by decide, by decide, rfl⟩
theorem witness_alawDec : (255 : Nat) ≤ 255 ∧
    exec (.alawDec 255 255) start = .next { start with result := 848#16 } := ⟨by decide, rfl⟩
theorem witness_ulawEnc : (32767 : Int) ≤ 32767 ∧
    exec (.ulawEnc 32767) start = .next { start with result := 0x80#16 } := ⟨by decide, rfl⟩
theorem witness_ulawDec_g711 : (255 : Nat) ≤ 255 ∧
    exec (.ulawDec 255 255) start = .next { start with result := 0#16 } := ⟨by decide, rfl⟩
theorem witness_ulawDec_docLiteral : startDoc.config.mulawDecodeRule = .docLiteral ∧
    exec (.ulawDec 255 255) startDoc = .next { startDoc with result := 132#16 } := ⟨rfl, rfl⟩
theorem witness_alawSymmetry : (0 : Int) ≤ 0 ∧ alawEncode 0 = 0xD5 ∧ alawEncode (-1) = 0x55 := by decide
theorem witness_alawMonotone : alawBody 15 = 0 ∧ alawBody 16 = 1 ∧ alawBody 32767 = 127 := by decide
theorem witness_alawMonotone_signs : alawEncode 15 ^^^ 0xD5 = 0 ∧ alawEncode 16 ^^^ 0xD5 = 1 ∧
    alawEncode (-17) ^^^ 0x55 = 1 ∧ alawEncode (-1) ^^^ 0x55 = 0 := by decide
theorem witness_alawMidpoint : alawBody 31744 = 16 * 7 + 15 ∧ alawDecode 0xAA = 32256 ∧
    alawDecode 0x2A = -32256 := by decide
theorem witness_alawRoundTrip : alawDecode (alawEncode (-32768)) - (-32768) = 512 ∧
    seg (alawMagnitude (-32768)) = 7 ∧ alawErrorBound 7 = 512 := by decide
theorem witness_ulawClamp : ulawMagnitude (-32636) + 132 = 32768 ∧ ulawBiased 32636 = 32767 ∧
    seg 32768 = 8 := by decide
theorem witness_ulawSymmetry : ulawEncode 1 = 0xFF ∧ ulawEncode (-1) = 0x7F ∧
    ulawEncode 32767 = 0x80 := by decide
theorem witness_ulawMonotone : ulawBody (ulawBiased 3) = 0 ∧ ulawBody (ulawBiased 4) = 1 ∧
    ulawBody (ulawBiased 32768) = 127 := by decide
theorem witness_ulawInterval : ulawBody 132 = 0 ∧ ulawBody 136 = 1 ∧ ulawDecodeG711 0xFE = 8 ∧
    ulawDecodeDoc 0xEF = 388 := by decide
theorem witness_g711RoundTrip_bound : (32635 : Int) ≤ 32635 ∧ seg (32635 + 132) = 7 ∧
    ulawDecodeG711 (ulawEncode 32635) = 32124 := by decide
theorem witness_g711RoundTrip_clamp : (32636 : Int) ≤ |(-32636 : Int)| ∧
    ulawDecodeG711 (ulawEncode (-32636)) = -32124 := by decide
theorem witness_g711Reencode : (0x7E : Nat) ≠ 0x7F ∧ ulawEncode (ulawDecodeG711 0x7E) = 0x7E := by decide
theorem witness_docLiteral : ulawEncode (ulawDecodeDoc 0x80) = 0x80 ∧
    ulawEncode (ulawDecodeDoc 0x81) ≠ 0x81 := by decide
theorem witness_resultPacking : (Instr.alawDec 0 0x2A).wellFormed = true ∧
    exec (.alawDec 0 0x2A) start = .next { start with result := 0x8200#16 } ∧
    (0x8200#16).toInt = -32256 := ⟨by decide, rfl, by decide⟩
theorem witness_writesZero_alawEnc : (Instr.alawEnc (-5377)).wellFormed = true ∧
    exec (.alawEnc (-5377)) start = .next { start with result := 0#16 } := ⟨by decide, rfl⟩
theorem witness_writesZero_ulawEnc : (Instr.ulawEnc (-31612)).wellFormed = true ∧
    exec (.ulawEnc (-31612)) start = .next { start with result := 0#16 } := ⟨by decide, rfl⟩
theorem witness_writesZero_ulawDec : (Instr.ulawDec 0 0x7F).wellFormed = true ∧
    exec (.ulawDec 0 0x7F) start = .next { start with result := 0#16 } := ⟨by decide, rfl⟩
theorem witness_writesZero_segSearch : (Instr.segSearch 255).wellFormed = true ∧
    exec (.segSearch 255) start = .next { start with result := 0#16 } := ⟨by decide, rfl⟩
theorem witness_resultInRange : (start.push (.issue 0x0001002A#32)).Inv ∧
    step (start.push (.issue 0x0001002A#32)) = .next { start with result := 0x8200#16 } :=
  ⟨by unfold State.Inv; decide, rfl⟩

/-- One array of samples and one of codes. -/
def withBuffers : State :=
  { start with arrays := [.samples [1000#16, 0x8000#16], .codes [0xD5#8, 0x55#8, 7#8]] }

theorem witness_batchEncodes : withBuffers.arrays[0]? = some (.samples [1000#16, 0x8000#16]) ∧
    withBuffers.arrays[1]? = some (.codes [0xD5#8, 0x55#8, 7#8]) ∧
    run 8 (withBuffers.push (.batch (.encode .alaw) .unsignedByte 0 1 2)) =
      .next { withBuffers with
        result := 0x2A#16
        reads := [.result 0xFA#16, .result 0x2A#16]
        arrays := [.samples [1000#16, 0x8000#16], .codes [0xFA#8, 0x2A#8, 7#8]] } := ⟨rfl, rfl, rfl⟩
theorem witness_batchDecodes : run 8 (withBuffers.push (.batch (.decode .alaw) .signedByte 1 0 2)) =
      .next { withBuffers with
        result := 0xFFF8#16
        reads := [.result 8#16, .result 0xFFF8#16]
        arrays := [.samples [8#16, 0xFFF8#16], .codes [0xD5#8, 0x55#8, 7#8]] } := rfl
theorem witness_batchOrder_encode : [1, 0].Perm (List.range 2) ∧
    run 7 (withBuffers.push (.iterate (.encode .alaw) .unsignedByte 0 1 [1, 0])) =
      .next { withBuffers with
        result := 0xFA#16
        reads := [.result 0x2A#16, .result 0xFA#16]
        arrays := [.samples [1000#16, 0x8000#16], .codes [0xFA#8, 0x2A#8, 7#8]] } := ⟨by decide, rfl⟩
theorem witness_batchOrder_decode : [1, 0].Perm (List.range 2) ∧
    run 7 (withBuffers.push (.iterate (.decode .alaw) .signedByte 1 0 [1, 0])) =
      .next { withBuffers with
        result := 8#16
        reads := [.result 0xFFF8#16, .result 8#16]
        arrays := [.samples [8#16, 0xFFF8#16], .codes [0xD5#8, 0x55#8, 7#8]] } := ⟨by decide, rfl⟩

/-- Two instances, one with ILL set, on the arrays of `withBuffers`. -/
def twoInstances : SharedHost := { instances := [start, start.setIll], arrays := withBuffers.arrays }

/-- The arrays after a split call and the steps of a schedule; none where one stops. -/
def splitArrays (wr : Wrapper) (inp out : Nat) (n : Int) (parts : List (List Nat)) (schedule : List Nat) :
    Option (List HostArray) :=
  match twoInstances.startSplit wr .unsignedByte inp out n parts with
  | .next h =>
    match SharedHost.run schedule h with
    | .next h' => if h'.idle then some h'.arrays else none
    | .fault _ => none
    | .refused _ => none
  | .fault _ => none
  | .refused _ => none

theorem witness_batchSplit_encode : twoInstances.idle = true ∧ [[1], [0]].flatten.Perm (List.range 2) ∧
    splitArrays (.encode .alaw) 0 1 2 [[1], [0]] [0, 1, 1, 0, 0, 1, 1, 0] =
      some [.samples [1000#16, 0x8000#16], .codes [0xFA#8, 0x2A#8, 7#8]] := by decide
theorem witness_batchSplit_decode : (∀ s ∈ twoInstances.instances, s.config = Config.standard) ∧
    splitArrays (.decode .alaw) 1 0 2 [[], [1, 0]] [1, 1, 0, 1, 1, 1, 1, 1] =
      some [.samples [8#16, 0xFFF8#16], .codes [0xD5#8, 0x55#8, 7#8]] := by decide
/-- Parts that leave out an index are no split of the range. -/
theorem test_batchSplit_missing : twoInstances.startSplit (.encode .alaw) .unsignedByte 0 1 2 [[0], []] =
    .fault .hostPrecondition := rfl

/-- One array of samples and one of signed byte containers. -/
def withContainers : State :=
  { start with arrays := [.samples [1000#16, 0x8000#16], .signedCodes [0xFFD5#16, 0x0055#16, 7#16]] }

/-- R94: the codes 0xFA and 0x2A are stored as sext_16 of them, 0xFFFA and 0x002A. -/
theorem witness_batchEncodes_signed : (Wrapper.encode .alaw).outKind (.signedCodes [7#16]) = true ∧
    run 8 (withContainers.push (.batch (.encode .alaw) .signedByte 0 1 2)) =
      .next { withContainers with
        result := 0x2A#16
        reads := [.result 0xFA#16, .result 0x2A#16]
        arrays := [.samples [1000#16, 0x8000#16], .signedCodes [0xFFFA#16, 0x002A#16, 7#16]] } :=
  ⟨rfl, rfl⟩
/-- R94 with P5: the containers of 0xD5 and 0x55 decode to 8 and -8. -/
theorem witness_batchDecodes_signed :
    (HostArray.signedCodes [0xFFD5#16, 0x0055#16]).codeBytes = some [0xD5#8, 0x55#8] ∧
    run 8 (withContainers.push (.batch (.decode .alaw) .signedByte 1 0 2)) =
      .next { withContainers with
        result := 0xFFF8#16
        reads := [.result 8#16, .result 0xFFF8#16]
        arrays := [.samples [8#16, 0xFFF8#16], .signedCodes [0xFFD5#16, 0x0055#16, 7#16]] } :=
  ⟨rfl, rfl⟩
theorem witness_batchWithoutCount : (Wrapper.encode .mulaw).inKind (.samples []) = true ∧
    (Wrapper.encode .mulaw).outKind (.codes []) = true ∧
    run 2 (withBuffers.push (.batch (.encode .mulaw) .unsignedByte 0 1 (-1))) = .next withBuffers :=
  ⟨rfl, rfl, rfl⟩
theorem witness_batchShared :
    step (withBuffers.push (.batch (.encode .alaw) .unsignedByte 0 0 1)) = .fault .hostPrecondition := rfl
theorem witness_batchShortInput :
    step (withBuffers.push (.batch (.encode .alaw) .unsignedByte 0 1 3)) = .fault .hostPrecondition := rfl
theorem witness_batchShortOutput :
    step (withBuffers.push (.batch (.decode .alaw) .unsignedByte 1 0 3)) = .fault .hostPrecondition := rfl
theorem test_batchWrongKind :
    step (withBuffers.push (.batch (.decode .alaw) .unsignedByte 0 1 1)) = .fault .hostArrayKind := rfl
theorem witness_reassembly_illegal : legalWord 0x00050000#32 = false ∧
    disassemble 0x00050000#32 = .word 0x00050000 := by decide
theorem witness_reassembly_highByte : decode 0x0001FFFA#32 = .instr (.alawDec 0xFF 0xFA) ∧
    disassemble 0x0001FFFA#32 = .word 0x0001FFFA := by decide
theorem witness_assembler_edges :
    assemble (.cmd .ulawEnc (.dec (-32768))) = some 0x00028000#32 ∧
    assemble (.cmd .ulawEnc (.dec 32768)) = none ∧
    assemble (.cmd .segSearch (.hex 0xFFFF)) = some 0x0004FFFF#32 ∧
    assemble (.cmd .segSearch (.hex 0x10000)) = none := by decide
theorem witness_assembler_text : ['s', 'e', 'G', '_', 'S', 'e', 'a', 'r', 'C', 'h'].map Char.toUpper =
      mnemonicText .segSearch ∧ ' ' ∉ ['0', 'x', 'f', 'F'] ∧
    assembleText (['s', 'e', 'G', '_', 'S', 'e', 'a', 'r', 'C', 'h'] ++ ' ' :: ['0', 'x', 'f', 'F']) =
      some 0x000400FF#32 := by decide
theorem witness_assembler_hexWidth : 0 < 2 ∧ 0xFA < 16 ^ 2 ∧ hexText 2 0xFA = ['0', 'x', 'F', 'A'] ∧
    parseLiteral ['0', 'x', 'F', 'A'] = some (.hex 0xFA) := by decide
theorem witness_instances :
    Platform.step 0 [start.push (.issue 0x00040200#32), start.push (.issue 0x00050000#32)] =
      .next [{ start with result := 2#16 }, start.push (.issue 0x00050000#32)] ∧
    Platform.step 1 [start.push (.issue 0x00040200#32), start.push (.issue 0x00050000#32)] =
      .next [start.push (.issue 0x00040200#32), start.setIll] := ⟨rfl, rfl⟩

end Sys2Proof.Tests
end

section
/-! PROOFS. The statements of 00_scope.md: a step on an issued legal word. -/

namespace Sys2Proof.Machine

/-- The transaction of a legal word is its command alone (R46). -/
theorem transact_of_decode_instr {w : Cmd} {i : Instr} (h : decode w = .instr i) (s : State) :
    transact w s = exec i s := by
  rw [transact, h]

/-- Settles O6: the step performs the oldest action, which is the transaction of the issued word. -/
theorem stepRunsTheDecodedCommand : Obligations.StepRunsTheDecodedCommand := by
  intro s w rest i hin hdec
  calc step s
      _ = perform (.issue w) (s.withInputs rest) := step_cons hin
      _ = transact w (s.withInputs rest) := rfl
      _ = exec i (s.withInputs rest) := transact_of_decode_instr hdec _

end Sys2Proof.Machine
end

section
/-! PROOFS. The statements of 10_state.md: what a transaction, a sequence of them and a step of one
core among several do to the state. -/

namespace Sys2Proof.Machine

/-- A word with RSVD 0 and an OP of the table is legal (30_encoding.md R42, R43). -/
theorem legalWord_of_fields {w : Cmd} (hrsvd : w.toNat / 2 ^ 19 = 0)
    (hop : w.toNat / 2 ^ 16 % 8 < 5) : legalWord w = true := by
  rw [← rsvdField_toNat] at hrsvd
  rw [← opField_toNat] at hop
  rw [legalWord_iff]
  rcases decode_cases w with ⟨hr, _⟩ | ⟨_, _, e⟩ | ⟨_, _, e⟩ | ⟨_, _, e⟩ | ⟨_, _, e⟩ | ⟨_, _, e⟩ |
    ⟨_, ho, _⟩
  case inl => exact absurd (BitVec.eq_of_toNat_eq hrsvd) hr
  case inr.inr.inr.inr.inr.inr => omega
  all_goals exact ⟨_, e⟩

/-- A legal word has a result, whatever the build. -/
theorem wordResult_of_decode_instr {w : Cmd} {i : Instr} (h : decode w = .instr i) (cfg : Config) :
    wordResult cfg w = some (resultValue cfg i) := by
  rw [wordResult, h]

/-- An illegal word has no result. -/
theorem wordResult_of_illegal {w : Cmd} (h : legalWord w = false) (cfg : Config) :
    wordResult cfg w = none := by
  cases e : decode w with
  | instr i => rw [(legalWord_iff w).2 ⟨i, e⟩] at h; cases h
  | rsvdNonzero => rw [wordResult, e]
  | opReserved => rw [wordResult, e]

/-- The state after a word's transaction: RESULT takes the word's result if it has one, ILL is set if the
word is illegal, and everything else stays (10_state.md R15, R17, R20). -/
def State.afterWord (s : State) (w : Cmd) : State :=
  { s with
    result := (wordResult s.config w).getD s.result
    ill := s.ill || !legalWord w }

/-- Every transaction completes with the state after its word. -/
theorem transact_eq (w : Cmd) (s : State) : transact w s = .next (s.afterWord w) := by
  rcases transact_cases w s with ⟨i, hdec, e⟩ | ⟨hw, e⟩
  · simp [e, State.afterWord, wordResult_of_decode_instr hdec, (legalWord_iff w).2 ⟨i, hdec⟩,
      State.writeResult]
  · simp [e, State.afterWord, wordResult_of_illegal hw, hw, State.raiseIllegalCommand, State.setIll]

/-- The first of some issued words is transacted, and the others stay pending. -/
theorem step_issue_cons (s : State) (w : Cmd) (as : List HostAct) :
    step (s.withInputs (.issue w :: as)) = .next ((s.afterWord w).withInputs as) := by
  rw [step_cons (State.withInputs_inputs s _), perform, transact_eq]
  rfl

/-- An issued legal word writes the value of its command to RESULT and nothing else. -/
theorem step_issue_of_decode_instr {w : Cmd} {i : Instr} (h : decode w = .instr i) (s : State) :
    step (s.push (.issue w)) = .next { s with result := resultValue s.config i } := by
  rw [step_push, perform, transact_of_decode_instr h, exec_eq]
  rfl

/-- Settles O9: such a word decodes to a command, whose value is the one written. -/
theorem legalWordsOnlyWriteResult : Obligations.LegalWordsOnlyWriteResult := by
  intro w s hrsvd hop
  obtain ⟨i, hdec⟩ := (legalWord_iff w).1 (legalWord_of_fields hrsvd hop)
  exact ⟨_, step_issue_of_decode_instr hdec s⟩

/-- The bits of STATUS (10_state.md R16). -/
theorem status_getLsbD (s : State) (k : Nat) :
    s.status.getLsbD k = (decide (k = 0) && s.ill) := by
  rw [State.status_eq]
  cases s.ill <;> simp [BitVec.getLsbD_one]

/-- Settles O10: bit 0 is the only bit of STATUS that is not 0 by its place. -/
theorem statusIsIllUnderZeros : Obligations.StatusIsIllUnderZeros := by
  intro s
  refine ⟨status_getLsbD s 0, fun k hk _ => ?_⟩
  rw [status_getLsbD, decide_eq_false (by omega), Bool.false_and]

/-! ### ILL -/

/-- A transaction ends with ILL set exactly if it was set or the word is illegal. -/
theorem ill_of_step_issue {w : Cmd} {s t : State} (h : step (s.push (.issue w)) = .next t) :
    t.ill = (s.ill || !legalWord w) := by
  rw [step_push, perform, transact_eq] at h
  cases h
  rfl

/-- A host action that clears ILL is a reset or a loss of power (10_state.md R17). -/
theorem perform_clears_ill {a : HostAct} {s t : State} (h : perform a s = .next t)
    (hset : s.ill = true) (hclear : t.ill = false) :
    (∃ ws, a = .reset ws) ∨ ∃ draw, a = .powerCycle draw := by
  obtain ⟨_, ⟨_, hill⟩ | ⟨_, _, _, _, _, hill⟩ | ⟨_, _, _, _, hill⟩ | ⟨ws, ha, _⟩ | ⟨d, ha, _⟩⟩ :=
    perform_core h
  · rw [hill, hset] at hclear; cases hclear
  · rw [hill, hset] at hclear; cases hclear
  · rw [hill] at hclear; cases hclear
  · exact .inl ⟨ws, ha⟩
  · exact .inr ⟨d, ha⟩

/-- A step that clears ILL performs a reset or a loss of power. -/
theorem step_clears_ill {s t : State} (h : step s = .next t) (hset : s.ill = true)
    (hclear : t.ill = false) :
    ∃ a rest, s.inputs = a :: rest ∧ ((∃ ws, a = .reset ws) ∨ ∃ draw, a = .powerCycle draw) := by
  cases hin : s.inputs with
  | nil =>
    rw [step_nil hin] at h
    cases h
    rw [hset] at hclear
    cases hclear
  | cons a rest =>
    rw [step_cons hin] at h
    exact ⟨a, rest, rfl, perform_clears_ill h hset hclear⟩

/-- Settles O12: the first two clauses are the value of ILL after a transaction, the third the inversion
of a step, and a legal command's value is a function of the word and the build. -/
theorem illIsStickyUntilReset : Obligations.IllIsStickyUntilReset := by
  intro s
  refine ⟨fun w t hw h => ?_, fun w t h hset => ?_, fun t => step_clears_ill,
    fun ws => ⟨s.resetCore, step_push s _, rfl⟩, fun w hw => ?_⟩
  · simp [ill_of_step_issue h, hw]
  · simp [ill_of_step_issue h, hset]
  · obtain ⟨i, hdec⟩ := (legalWord_iff w).1 hw
    exact ⟨resultValue s.config i, fun b => step_issue_of_decode_instr hdec _⟩

/-! ### Sequences of commands -/

/-- Before any word RESULT is what it was. -/
@[simp] theorem lastResult_nil (cfg : Config) (before : Half) : lastResult cfg before [] = before := rfl

/-- The last result of a sequence is that of its tail, started from what its first word leaves. -/
theorem lastResult_cons (cfg : Config) (before : Half) (w : Cmd) (ws : List Cmd) :
    lastResult cfg before (w :: ws) = lastResult cfg ((wordResult cfg w).getD before) ws := by
  cases h : wordResult cfg w <;> simp [lastResult, h, List.getLast?_cons]

/-- Settles O14, by induction on the words: the first transaction, then the rest from the state it
leaves. -/
theorem commandSequenceLeavesLastResult : Obligations.CommandSequenceLeavesLastResult := by
  intro s ws
  induction ws generalizing s with
  | nil => simp [State.withInputs]
  | cons w ws ih =>
    rw [List.length_cons, List.map_cons, run_succ _ (step_issue_cons s w _), ih (s.afterWord w),
      lastResult_cons, List.any_cons, ← Bool.or_assoc]
    rfl

/-! ### What a result depends on -/

/-- A result depends on the operand and MULAW_DECODE_RULE only. -/
theorem resultValue_congr {cfg cfg' : Config} (h : cfg.mulawDecodeRule = cfg'.mulawDecodeRule)
    (i : Instr) : resultValue cfg i = resultValue cfg' i := by
  cases i with
  | ulawDec hi c => simp only [resultValue, h]
  | _ => rfl

/-- The result of a command other than ULAW_DEC does not depend on the build (10_state.md R21). -/
theorem resultValue_of_ne_ulawDec {i : Instr} (h : ∀ hi c, i ≠ .ulawDec hi c) (cfg cfg' : Config) :
    resultValue cfg i = resultValue cfg' i := by
  cases i with
  | ulawDec hi c => exact absurd rfl (h hi c)
  | _ => rfl

/-- Settles O17: both states give the value of the same command under the same rule. -/
theorem resultDependsOnWordAndRuleOnly : Obligations.ResultDependsOnWordAndRuleOnly := by
  intro w s t hw hrule
  obtain ⟨i, hdec⟩ := (legalWord_iff w).1 hw
  refine ⟨resultValue s.config i, step_issue_of_decode_instr hdec s, ?_⟩
  rw [resultValue_congr hrule i]
  exact step_issue_of_decode_instr hdec t

/-- No step changes the build. -/
theorem step_config {s t : State} (h : step s = .next t) : t.config = s.config := by
  cases hin : s.inputs with
  | nil => rw [step_nil hin] at h; cases h; rfl
  | cons a rest => rw [step_cons hin] at h; exact (perform_core h).1

/-- Settles O23: the build is kept by every host action, and a command reads it only through its
result. -/
theorem decodeRuleIsFixedAndReadByUlawDecOnly : Obligations.DecodeRuleIsFixedAndReadByUlawDecOnly := by
  refine ⟨fun s t => step_config, fun i s t cfg hi h => ?_⟩
  rw [exec_eq] at h ⊢
  cases h
  rw [resultValue_of_ne_ulawDec hi _ s.config]
  rfl

/-! ### Several cores side by side -/

/-- A step of one of its cores is a step of the platform. -/
theorem platform_step {k : Nat} {p : Platform} {s t : State} (hk : p[k]? = some s)
    (hs : step s = .next t) : Platform.step k p = .next (p.set k t) := by
  simp only [Platform.step, hk, hs]

/-- Settles O59: each step replaces its own entry of the list, and replacements at two places commute. -/
theorem instancesShareNothing : Obligations.InstancesShareNothing := by
  intro p q k hq
  obtain ⟨s, s', hs, hstep, rfl⟩ := platform_step_cases hq
  refine ⟨List.length_set, fun j hjk => ⟨List.getElem?_set_ne hjk.symm, fun r hr => ?_⟩⟩
  obtain ⟨t, t', ht, htstep, rfl⟩ := platform_step_cases hr
  have hj : (p.set k s')[j]? = some t := by rw [List.getElem?_set_ne hjk.symm, ht]
  have hk : (p.set j t')[k]? = some s := by rw [List.getElem?_set_ne hjk, hs]
  refine ⟨_, platform_step hj htstep, ?_⟩
  rw [platform_step hk hstep, List.set_comm _ _ hjk]

end Sys2Proof.Machine
end

section
/-! PROOFS. The statements of 20_memory.md: what the host reads between commands, and that reads and
commands repeat. -/

namespace Sys2Proof.Machine

/-! ### Reads after earlier commands and before later ones -/

/-- The state after the transactions of some words, in order: what `State.afterWord` is for one word
(10_state.md R15, R17). -/
def State.afterWords (s : State) (ws : List Cmd) : State :=
  { s with
    result := lastResult s.config s.result ws
    ill := s.ill || ws.any (fun w => !legalWord w) }

/-- Without words nothing changes. -/
@[simp] theorem afterWords_nil (s : State) : s.afterWords [] = s := by
  simp [State.afterWords]

/-- The transactions of some words are the first one and then those of the others. -/
theorem afterWords_cons (s : State) (w : Cmd) (ws : List Cmd) :
    s.afterWords (w :: ws) = (s.afterWord w).afterWords ws := by
  rw [State.afterWords, lastResult_cons, List.any_cons, ← Bool.or_assoc]
  rfl

/-- Issued words are transacted in order, and the actions behind them stay pending. -/
theorem run_issues_append (s : State) (ws : List Cmd) (as : List HostAct) :
    run ws.length (s.withInputs (ws.map .issue ++ as)) = .next ((s.afterWords ws).withInputs as) := by
  induction ws generalizing s with
  | nil => simp
  | cons w ws ih =>
    rw [List.length_cons, List.map_cons, List.cons_append, run_succ _ (step_issue_cons s w _),
      ih (s.afterWord w), afterWords_cons]

/-- A pending read of RESULT is performed, and the actions behind it stay pending. -/
theorem step_readResult_cons (s : State) (as : List HostAct) :
    step (s.withInputs (.readResult :: as)) = .next (s.readResult.withInputs as) := by
  rw [step_cons (State.withInputs_inputs s _)]
  rfl

/-- A pending read of STATUS is performed, and the actions behind it stay pending. -/
theorem step_readStatus_cons (s : State) (as : List HostAct) :
    step (s.withInputs (.readStatus :: as)) = .next (s.readStatus.withInputs as) := by
  rw [step_cons (State.withInputs_inputs s _)]
  rfl

/-- Two reads after some words return RESULT and STATUS as those words leave them. -/
theorem reads_after_words (s : State) (ws : List Cmd) :
    (s.afterWords ws).readResult.readStatus.reads = s.reads ++
      [.result (lastResult s.config s.result ws),
       .status (if s.ill || ws.any (fun w => !legalWord w) then 1#16 else 0#16)] := by
  rw [State.readStatus, State.logRead_reads, State.status_eq, State.readResult, State.logRead_reads,
    List.append_assoc]
  rfl

/-- Settles O16: the run is the earlier commands, the two reads, and the later commands, which read
nothing. -/
theorem readsSeeExactlyEarlierCommands : Obligations.ReadsSeeExactlyEarlierCommands := by
  intro s before after
  have hlen : before.length + 2 + after.length = before.length + (after.length + 1 + 1) := by omega
  rw [hlen, run_add (run_issues_append s before _), run_succ _ (step_readResult_cons _ _),
    run_succ _ (step_readStatus_cons _ _), commandSequenceLeavesLastResult]
  exact ⟨_, rfl, reads_after_words s before⟩

/-! ### Repetition -/

/-- A word transacted twice leaves what it leaves once: a legal one writes the same value, an illegal one
sets the same bit. -/
theorem afterWord_afterWord (s : State) (w : Cmd) : (s.afterWord w).afterWord w = s.afterWord w := by
  have hresult : (wordResult s.config w).getD ((wordResult s.config w).getD s.result) =
      (wordResult s.config w).getD s.result := by
    cases wordResult s.config w <;> rfl
  simp only [State.afterWord, hresult, Bool.or_assoc, Bool.or_self]

/-- Settles O18: a read only logs the register it reads, and `State.afterWord` is idempotent. -/
theorem readsAndCommandsAreIdempotent : Obligations.ReadsAndCommandsAreIdempotent := by
  intro s
  refine ⟨⟨_, _, step_push s _, rfl, step_push _ _, rfl⟩,
    ⟨_, _, step_push s _, rfl, step_push _ _, rfl⟩, fun w t h => ?_⟩
  rw [step_push, perform, transact_eq] at h ⊢
  cases h
  rw [afterWord_afterWord]

end Sys2Proof.Machine
end

section
/-! PROOFS. The statements of 30_encoding.md on the decode step: which command a word is, IllegalCommand,
and the ignored byte. -/

namespace Sys2Proof.Machine

/-- An illegal word sets ILL and changes nothing else (R46). -/
theorem transact_of_illegal {w : Cmd} (h : decode w = .rsvdNonzero ∨ decode w = .opReserved) (s : State) :
    transact w s = .next { s with ill := true } := by
  rcases h with e | e <;> rw [transact, e] <;> rfl

/-- Settles O3: the answers of the decode step, each with its fields read as numbers. -/
theorem decodeStepSelectsByFields : Obligations.DecodeStepSelectsByFields := by
  intro w s rsvd op data x
  have hrsvd : rsvd = (rsvdField w).toNat := (rsvdField_toNat w).symm
  have hop : op = (opField w).toNat := (opField_toNat w).symm
  have hdata : data = (dataField w).toNat := (dataField_toNat w).symm
  have hx : x = s16 (dataField w) := by rw [s16_eq, ← hdata]; rfl
  clear_value rsvd op data x
  subst hx hdata
  rw [step_push, perform, ← codeField_toNat, ← ignoredField_toNat]
  rcases decode_cases w with ⟨hr, e⟩ | ⟨hr, ho, e⟩ | ⟨hr, ho, e⟩ | ⟨hr, ho, e⟩ | ⟨hr, ho, e⟩ |
    ⟨hr, ho, e⟩ | ⟨hr, ho, e⟩
  case inl =>
    have hne : rsvd ≠ 0 := fun h0 => hr (BitVec.eq_of_toNat_eq (hrsvd.symm.trans h0))
    rw [if_pos hne, transact_of_illegal (.inl e)]
  case inr.inr.inr.inr.inr.inr =>
    have hzero : rsvd = 0 := by rw [hrsvd, hr]; rfl
    rw [transact_of_illegal (.inr e), if_neg (not_not_intro hzero)]
    iterate 5 rw [if_neg (by omega)]
  all_goals simp [transact_of_decode_instr e, hrsvd, hr, hop, ho]

/-- Settles O8: on such a word the chain of the decode step ends in one of its two illegal arms. -/
theorem illegalWordsOnlySetIll : Obligations.IllegalWordsOnlySetIll := by
  intro w s h
  rw [decodeStepSelectsByFields w s]
  by_cases hr : w.toNat / 2 ^ 19 = 0
  · have ho : 5 ≤ w.toNat / 2 ^ 16 % 8 := h.resolve_left (not_not_intro hr)
    rw [if_neg (not_not_intro hr)]
    iterate 5 rw [if_neg (by omega)]
  · rw [if_pos hr]

/-- A word with an A-law decoder's OP is legal, whatever its DATA (R41, R44). -/
theorem decode_commandWord_alawDec (d : Half) :
    decode (commandWord 1#3 d) = .instr (.alawDec (ignoredField d).toNat (codeField d).toNat) := by
  simp [decode]

/-- A word with a μ-law decoder's OP is legal, whatever its DATA (R41, R44). -/
theorem decode_commandWord_ulawDec (d : Half) :
    decode (commandWord 3#3 d) = .instr (.ulawDec (ignoredField d).toNat (codeField d).toNat) := by
  simp [decode]

/-- Decoder words that agree in OP and code are performed alike (R44). -/
theorem step_decoderWord_congr {op : BitVec 3} (hop : op = 1#3 ∨ op = 3#3) {d d' : Half}
    (h : codeField d = codeField d') (s : State) :
    step (s.push (.issue (commandWord op d))) = step (s.push (.issue (commandWord op d'))) := by
  rcases hop with rfl | rfl
  · rw [step_issue_of_decode_instr (decode_commandWord_alawDec d),
      step_issue_of_decode_instr (decode_commandWord_alawDec d'), resultValue, resultValue, h]
  · rw [step_issue_of_decode_instr (decode_commandWord_ulawDec d),
      step_issue_of_decode_instr (decode_commandWord_ulawDec d'), resultValue, resultValue, h]

/-- A zero-extended code carries the code. -/
@[simp] theorem codeField_zext16 (c : Byte) : codeField (zext16 c.toNat) = c := by
  have := c.isLt
  apply BitVec.eq_of_toNat_eq
  rw [codeField_toNat, zext16_toNat (by omega)]
  omega

/-- Settles O7: the three operands carry the same code. -/
theorem decodersIgnoreTheHighByte : Obligations.DecodersIgnoreTheHighByte := by
  intro op hi c s hop
  refine ⟨?_, step_decoderWord_congr hop (by simp) s, step_decoderWord_congr hop (by simp) s⟩
  rcases hop with rfl | rfl
  · exact ⟨_, decode_commandWord_alawDec _⟩
  · exact ⟨_, decode_commandWord_ulawDec _⟩

end Sys2Proof.Machine
end

section
/-! PROOFS. The statements of 30_encoding.md on codes and results: bit 7 of a code and the packing of
RESULT. -/

namespace Sys2Proof.Machine

/-! ### The encoders' 7-bit values and codes -/

/-- A segment below the sentinel and a nibble are a 7-bit value. -/
theorem shiftLeft_or_nibble_lt {s : Nat} (hs : s < 8) (n : Nat) : (s <<< 4) ||| (n &&& 0xF) < 2 ^ 7 := by
  refine Nat.or_lt_two_pow ?_ (lt_of_le_of_lt Nat.and_le_right (by decide))
  rw [Nat.shiftLeft_eq]
  omega

/-- The A-law value before the mask has 7 bits, the sentinel's 0x7F included (42_alaw.md R62). -/
theorem alawBody_lt (m : Nat) : alawBody m < 2 ^ 7 := by
  rw [alawBody]
  by_cases h8 : 8 ≤ seg m
  · simp [h8]
  · by_cases h2 : seg m < 2
    · simpa [h8, h2] using shiftLeft_or_nibble_lt (by omega) (m >>> 4)
    · simpa [h8, h2] using shiftLeft_or_nibble_lt (by omega) (m >>> (seg m + 3))

/-- The μ-law value before the mask has 7 bits, the sentinel's 0x7F included (43_mulaw.md R74). -/
theorem ulawBody_lt (b : Nat) : ulawBody b < 2 ^ 7 := by
  rw [ulawBody]
  by_cases h8 : 8 ≤ seg b
  · simp [h8]
  · simpa [h8] using shiftLeft_or_nibble_lt (by omega) (b >>> (seg b + 3))

/-- Bit 7 of the A-law mask is the sign (R62). -/
theorem alawMask_testBit_seven (x : Int) : (alawMask x).testBit 7 = decide (0 ≤ x) := by
  by_cases h : 0 ≤ x <;> simp [alawMask, h] <;> decide

/-- Bit 7 of the μ-law mask is the sign (R74). -/
theorem ulawMask_testBit_seven (x : Int) : (ulawMask x).testBit 7 = decide (0 ≤ x) := by
  by_cases h : 0 ≤ x
  · simp [ulawMask, h, not_lt.2 h]; decide
  · simp [ulawMask, h, not_le.1 h]; decide

/-- Bit 7 of a 7-bit value under a mask is that of the mask. -/
theorem testBit_seven_xor {b : Nat} (hb : b < 2 ^ 7) (mask : Nat) :
    (b ^^^ mask).testBit 7 = mask.testBit 7 := by
  rw [Nat.testBit_xor, Nat.testBit_lt_two_pow hb, Bool.false_xor]

/-- Settles O46: the 7-bit value leaves bit 7 to the mask. -/
theorem codeBitSevenIsTheSign : Obligations.CodeBitSevenIsTheSign := by
  intro x _ _
  refine ⟨?_, ?_, Nat.le_of_lt_succ (alawBody_lt _), Nat.le_of_lt_succ (ulawBody_lt _)⟩
  · rw [alawEncode, testBit_seven_xor (alawBody_lt _), alawMask_testBit_seven]
  · rw [ulawEncode, testBit_seven_xor (ulawBody_lt _), ulawMask_testBit_seven]

/-- An A-law code has 8 bits. -/
theorem alawEncode_lt (x : Int) : alawEncode x < 256 := by
  refine Nat.xor_lt_two_pow (n := 8) ((alawBody_lt _).trans (by decide)) ?_
  rw [alawMask]
  split <;> decide

/-- A μ-law code has 8 bits. -/
theorem ulawEncode_lt (x : Int) : ulawEncode x < 256 := by
  refine Nat.xor_lt_two_pow (n := 8) ((ulawBody_lt _).trans (by decide)) ?_
  rw [ulawMask]
  split <;> decide

/-! ### The decoders' samples -/

/-- A shift is monotone in both operands. -/
theorem shiftLeft_le_shiftLeft {m n j k : Nat} (hmn : m ≤ n) (hjk : j ≤ k) : m <<< j ≤ n <<< k := by
  rw [Nat.shiftLeft_eq, Nat.shiftLeft_eq]
  exact Nat.mul_le_mul hmn (Nat.pow_le_pow_right (by decide) hjk)

/-- The segment field of a code is at most 7. -/
theorem segmentField_le (a : Nat) : (a &&& 0x70) >>> 4 ≤ 7 := by
  have h : a &&& 0x70 ≤ 0x70 := Nat.and_le_right
  rw [Nat.shiftRight_eq_div_pow]
  omega

/-- The largest magnitude of the A-law decoder, at segment 7 and nibble 15 (42_alaw.md R69). -/
theorem alawDecodedMagnitude_le {s q : Nat} (hs : s ≤ 7) (hq : q ≤ 15) :
    alawDecodedMagnitude s q ≤ 32256 := by
  have ht : q <<< 4 ≤ 15 <<< 4 := shiftLeft_le_shiftLeft hq le_rfl
  rw [alawDecodedMagnitude]
  split
  · omega
  split
  · omega
  · calc (q <<< 4 + 0x108) <<< (s - 1)
        _ ≤ (15 <<< 4 + 0x108) <<< (7 - 1) := shiftLeft_le_shiftLeft (by omega) (by omega)
        _ = 32256 := rfl

/-- The samples of the A-law decoder (42_alaw.md R68). -/
theorem alawDecode_range (c : Nat) : -32256 ≤ alawDecode c ∧ alawDecode c ≤ 32256 := by
  have h := alawDecodedMagnitude_le (segmentField_le (c ^^^ 0x55)) (q := (c ^^^ 0x55) &&& 0xF)
    Nat.and_le_right
  simp only [alawDecode]
  split <;> omega

/-- The samples of the `G711` decoder (43_mulaw.md R82). -/
theorem ulawDecodeG711_range (c : Nat) : -32256 ≤ ulawDecodeG711 c ∧ ulawDecodeG711 c ≤ 32256 := by
  have hq : (not8 c &&& 0xF) <<< 3 ≤ 15 <<< 3 := shiftLeft_le_shiftLeft Nat.and_le_right le_rfl
  have h : ((not8 c &&& 0xF) <<< 3 + 0x84) <<< ((not8 c &&& 0x70) >>> 4) ≤ (15 <<< 3 + 0x84) <<< 7 :=
    shiftLeft_le_shiftLeft (by omega) (segmentField_le _)
  simp only [ulawDecodeG711]
  generalize ((not8 c &&& 0xF) <<< 3 + 0x84) <<< ((not8 c &&& 0x70) >>> 4) = t at h ⊢
  split <;> omega

/-- The samples of the `DOC_LITERAL` decoder (43_mulaw.md R82). -/
theorem ulawDecodeDoc_range (c : Nat) : -32512 ≤ ulawDecodeDoc c ∧ ulawDecodeDoc c ≤ 32512 := by
  have hs := segmentField_le (not8 c)
  have hq : (not8 c &&& 0xF) <<< 3 ≤ 15 <<< 3 := shiftLeft_le_shiftLeft Nat.and_le_right le_rfl
  have h : ((not8 c &&& 0xF) <<< 3 + 0x84 + 0x100) <<< ((not8 c &&& 0x70) >>> 4 - 1) ≤
      (15 <<< 3 + 0x84 + 0x100) <<< (7 - 1) :=
    shiftLeft_le_shiftLeft (by omega) (by omega)
  simp only [ulawDecodeDoc]
  generalize ((not8 c &&& 0xF) <<< 3 + 0x84 + 0x100) <<< ((not8 c &&& 0x70) >>> 4 - 1) = t at h ⊢
  split <;> split <;> omega

/-! ### Packing -/

/-- The pattern of a sample denotes the sample. -/
theorem toInt_bits16 {v : Int} (h0 : -32768 ≤ v) (h1 : v ≤ 32767) : (bits16 v).toInt = v := by
  rw [← s16_eq_toInt, s16_bits16 h0 h1]

/-- A code in RESULT is zero-extended, and its signed byte container holds the same 8 bits (R47). -/
theorem code_packing {v : Nat} (h : v < 256) :
    (zext16 v).toNat = v ∧ (zext16 v).toNat < 256 ∧ (sext16 (codeField (zext16 v))).toNat % 256 = v := by
  have hv : (zext16 v).toNat = v := zext16_toNat (by omega)
  refine ⟨hv, by omega, ?_⟩
  rw [← codeField_toNat, codeField_sext16, codeField_toNat, hv, Nat.mod_eq_of_lt h]

/-- Settles O47: a command leaves its value, which is in the range that the packing keeps. -/
theorem resultPacking : Obligations.ResultPacking := by
  intro i s t _ h
  rw [exec_eq] at h
  cases h
  cases i with
  | alawEnc x => exact code_packing (alawEncode_lt x)
  | ulawEnc x => exact code_packing (ulawEncode_lt x)
  | alawDec hi c =>
    obtain ⟨h0, h1⟩ := alawDecode_range c
    exact toInt_bits16 (by omega) (by omega)
  | ulawDec hi c =>
    rw [State.writeResult_result, resultValue]
    cases hrule : s.config.mulawDecodeRule with
    | g711 =>
      obtain ⟨h0, h1⟩ := ulawDecodeG711_range c
      exact toInt_bits16 (v := ulawDecodeG711 c) (by omega) (by omega)
    | docLiteral =>
      obtain ⟨h0, h1⟩ := ulawDecodeDoc_range c
      exact toInt_bits16 (v := ulawDecodeDoc c) (by omega) (by omega)
  | segSearch m =>
    have hv : (zext16 (seg m)).toNat = seg m := zext16_toNat (by have := seg_le_eight m; omega)
    exact ⟨hv, hv.trans_le (seg_le_eight m)⟩

end Sys2Proof.Machine
end

section
/-! PROOFS. The statements of 30_encoding.md on assembly: the operand ranges, the lexical forms, and
re-assembly of what the disassembler prints. -/

namespace Sys2Proof.Machine

/-! ### Words and their fields -/

/-- A word with RSVD 0 is built from its OP and DATA (R39). -/
theorem commandWord_fields {w : Cmd} (h : rsvdField w = 0#13) :
    commandWord (opField w) (dataField w) = w := by
  have hzero : w.toNat / 2 ^ 19 = 0 := by rw [← rsvdField_toNat, h]; rfl
  apply BitVec.eq_of_toNat_eq
  rw [commandWord_toNat, opField_toNat, dataField_toNat]
  omega

/-- A decoder's DATA is built from its two bytes (R41, R44). -/
theorem append_bytes (d : Half) :
    BitVec.ofNat 8 (ignoredField d).toNat ++ BitVec.ofNat 8 (codeField d).toNat = d := by
  have := d.isLt
  apply BitVec.eq_of_toNat_eq
  rw [BitVec.ofNat_toNat, BitVec.ofNat_toNat, BitVec.setWidth_eq, BitVec.setWidth_eq, append_toNat,
    ignoredField_toNat, codeField_toNat]
  omega

/-- A word that decodes to a command is the command's encoding, ignored byte included (R39, R44). -/
theorem encode_of_decode {w : Cmd} {i : Instr} (h : decode w = .instr i) : encode i = w := by
  rcases decode_cases w with ⟨_, e⟩ | ⟨hr, ho, e⟩ | ⟨hr, ho, e⟩ | ⟨hr, ho, e⟩ | ⟨hr, ho, e⟩ |
    ⟨hr, ho, e⟩ | ⟨_, _, e⟩ <;> rw [e] at h <;> cases h <;> rw [encode, opOf, dataOf, ← ho]
  · rw [bits16_s16, commandWord_fields hr]
  · rw [append_bytes, commandWord_fields hr]
  · rw [bits16_s16, commandWord_fields hr]
  · rw [append_bytes, commandWord_fields hr]
  · rw [zext16, BitVec.ofNat_toNat, BitVec.setWidth_eq, commandWord_fields hr]

/-- The encoding of a command as the number `{13'b0, OP, DATA}` (R39, R52). -/
theorem encode_eq_fieldsWord {i : Instr} {data : Nat} (h : (dataOf i).toNat = data) :
    encode i = fieldsWord 0 (opOf i).toNat data := by
  subst h
  have := (opOf i).isLt
  have := (dataOf i).isLt
  apply BitVec.eq_of_toNat_eq
  rw [encode, commandWord_toNat, fieldsWord, BitVec.toNat_ofNat]
  omega

/-- The DATA of a sample, as a number (R41). -/
theorem bits16_toNat (x : Int) : (bits16 x).toNat = (x % 65536).toNat := by
  rw [bits16, BitVec.toNat_ofInt]
  rfl

/-- The DATA of a code whose ignored byte is 0, as a number (R41). -/
theorem zero_append_toNat {c : Nat} (h : c ≤ 255) : (BitVec.ofNat 8 0 ++ BitVec.ofNat 8 c).toNat = c := by
  rw [append_toNat, BitVec.toNat_ofNat, BitVec.toNat_ofNat]
  omega

/-! ### The operand ranges -/

/-- A command with a sample operand takes exactly the decimal samples and the 16-bit patterns (R52). -/
theorem assemble_sample {mn : Mnemonic} {f : Int → Instr} {op : Nat}
    (hmn : ∀ l, assembleInstr mn l = (assembleSample l).map f)
    (hf : ∀ x, encode (f x) = fieldsWord 0 op (x % 65536).toNat) :
    (∀ v : Int, assemble (.cmd mn (.dec v)) =
      if -32768 ≤ v ∧ v ≤ 32767 then some (fieldsWord 0 op (v % 65536).toNat) else none) ∧
    ∀ v : Nat, assemble (.cmd mn (.hex v)) =
      if v ≤ 0xFFFF then some (fieldsWord 0 op v) else none := by
  refine ⟨fun v => ?_, fun v => ?_⟩ <;> rw [assemble, hmn, assembleSample] <;> split
  · rw [Option.map_some, Option.map_some, hf]
  · rfl
  · rw [Option.map_some, Option.map_some, hf, ← bits16_toNat, bits16_s16, BitVec.toNat_ofNat,
      Nat.mod_eq_of_lt (by omega)]
  · rfl

/-- A command with an unsigned operand takes exactly the numbers up to the greatest one (R52). -/
theorem assemble_unsigned {mn : Mnemonic} {f : Nat → Instr} {op top : Nat}
    (hmn : ∀ l, assembleInstr mn l = (assembleUnsigned top l).map f)
    (hf : ∀ c ≤ top, encode (f c) = fieldsWord 0 op c) :
    (∀ v : Int, assemble (.cmd mn (.dec v)) =
      if 0 ≤ v ∧ v ≤ top then some (fieldsWord 0 op v.toNat) else none) ∧
    ∀ v : Nat, assemble (.cmd mn (.hex v)) =
      if v ≤ top then some (fieldsWord 0 op v) else none := by
  refine ⟨fun v => ?_, fun v => ?_⟩ <;> rw [assemble, hmn, assembleUnsigned] <;> split
  · rw [Option.map_some, Option.map_some, hf _ (by omega)]
  · rfl
  · next h => rw [Option.map_some, Option.map_some, hf _ h]
  · rfl

/-! ### Mnemonics and lines -/

/-- A token is read as a mnemonic exactly if its upper-case form is the spelling (R52). -/
theorem parseMnemonic_eq_some_iff (t : List Char) (mn : Mnemonic) :
    parseMnemonic t = some mn ↔ t.map Char.toUpper = mnemonicText mn := by
  constructor
  · intro h
    simpa using List.find?_some h
  · intro h
    cases mn <;> simp [parseMnemonic, h, mnemonicText]

/-- A line of a mnemonic and one more token is read as that mnemonic with the token's literal (R52). -/
theorem parseLine_cmd {t l : List Char} {mn : Mnemonic} (ht : t.map Char.toUpper = mnemonicText mn)
    (hl0 : l ≠ []) (hl : ' ' ∉ l) :
    parseLine (t ++ ' ' :: l) = (parseLiteral l).map (AsmLine.cmd mn) := by
  have ht0 : t ≠ [] := by rintro rfl; cases mn <;> cases ht
  have hword : t ≠ wordDirective := by rintro rfl; revert ht; cases mn <;> decide
  simp only [parseLine, tokens_pair (space_notMem_of_mnemonic ht) hl ht0 hl0, if_neg hword,
    (parseMnemonic_eq_some_iff t mn).2 ht]
  cases parseLiteral l <;> rfl

/-- A line of the directive and a hexadecimal literal is read as that word (R53). -/
theorem parseLine_word {l : List Char} {v : Nat} (h : parseLiteral l = some (.hex v))
    (hl0 : l ≠ []) (hl : ' ' ∉ l) : parseLine (wordDirective ++ ' ' :: l) = some (.word v) := by
  simp only [parseLine, tokens_pair (show ' ' ∉ wordDirective by decide) hl (by decide) hl0, h]
  rfl

/-! ### Literals -/

/-- A digit below the base is read onto the number before it. -/
theorem parseDigits_cons {base d : Nat} {ch : Char} (h : digitValue ch = some d) (hd : d < base)
    (cs : List Char) (acc : Nat) :
    parseDigits base (ch :: cs) acc = parseDigits base cs (acc * base + d) := by
  simp only [parseDigits, h, if_pos hd]

/-- No space is among the digits of a number. -/
theorem space_notMem_of_parseDigits {base n : Nat} {cs : List Char} {acc : Nat}
    (h : parseDigits base cs acc = some n) : ' ' ∉ cs := by
  induction cs generalizing acc with
  | nil => exact List.not_mem_nil
  | cons ch cs ih =>
    simp only [parseDigits] at h
    split at h
    · cases h
    · next d hd =>
      split at h
      · rw [List.mem_cons, not_or]
        refine ⟨?_, ih h⟩
        rintro rfl
        exact absurd hd (by simp [digitValue])
      · cases h

/-- A number is one or more digits. -/
theorem parseNumber_eq_some_iff {base n : Nat} {cs : List Char} :
    parseNumber base cs = some n ↔ cs ≠ [] ∧ parseDigits base cs 0 = some n := by
  rw [parseNumber]
  split <;> simp [*]

/-- The three forms of a literal: `0x` and hexadecimal digits, a sign and decimal digits, or decimal
digits alone (R52). -/
theorem parseLiteral_cases (l : List Char) :
    (∃ cs, l = '0' :: 'x' :: cs ∧ parseLiteral l = (parseNumber 16 cs).map Literal.hex) ∨
    (∃ cs, l = '-' :: cs ∧
      parseLiteral l = (parseNumber 10 cs).map (fun n : Nat => Literal.dec (-(n : Int)))) ∨
    parseLiteral l = (parseNumber 10 l).map (fun n : Nat => Literal.dec n) := by
  unfold parseLiteral
  split
  · next cs => exact .inl ⟨cs, rfl, rfl⟩
  · next cs => exact .inr (.inl ⟨cs, rfl, by cases parseNumber 10 cs <;> rfl⟩)
  · exact .inr (.inr (by cases parseNumber 10 l <;> rfl))

/-- No space is in a literal. -/
theorem space_notMem_of_parseLiteral {l : List Char} {v : Literal} (h : parseLiteral l = some v) :
    ' ' ∉ l := by
  have hspace {base : Nat} {cs : List Char} {f : Nat → Literal}
      (hmap : (parseNumber base cs).map f = some v) : ' ' ∉ cs := by
    obtain ⟨n, hn, _⟩ := Option.map_eq_some_iff.1 hmap
    exact space_notMem_of_parseDigits (parseNumber_eq_some_iff.1 hn).2
  rcases parseLiteral_cases l with ⟨cs, rfl, e⟩ | ⟨cs, rfl, e⟩ | e <;> rw [e] at h
  · simpa using hspace h
  · simpa using hspace h
  · exact hspace h

/-- A literal is not empty. -/
theorem ne_nil_of_parseLiteral {l : List Char} {v : Literal} (h : parseLiteral l = some v) : l ≠ [] := by
  rintro rfl
  cases h

/-- What is read as decimal digits is a non-negative decimal literal: it begins neither with a sign nor
with `0x`. -/
theorem parseLiteral_of_parseDigits {cs : List Char} {n : Nat} (h0 : cs ≠ [])
    (h : parseDigits 10 cs 0 = some n) : parseLiteral cs = some (.dec n) := by
  rcases parseLiteral_cases cs with ⟨_, rfl, _⟩ | ⟨_, rfl, _⟩ | e
  · exact absurd h (by simp [parseDigits, digitValue])
  · exact absurd h (by simp [parseDigits, digitValue])
  · rw [e, parseNumber_eq_some_iff.2 ⟨h0, h⟩, Option.map_some]

/-- Printed decimal digits are read as the number they print. -/
theorem parseDigits_toDigits (n : Nat) : parseDigits 10 (Nat.toDigits 10 n) 0 = some n := by
  induction n using Nat.strong_induction_on with
  | _ n ih =>
    by_cases h : n < 10
    · rw [Nat.toDigits_of_lt_base h, parseDigits_cons (digitValue_digitChar n h) h, parseDigits]
      simp
    · have hmod : n % 10 < 10 := Nat.mod_lt _ (by decide)
      rw [Nat.toDigits_of_base_le (by decide) (by omega), parseDigits_append, ih _ (by omega),
        Option.bind_some, parseDigits_cons (digitValue_digitChar _ hmod) hmod, parseDigits,
        Nat.div_add_mod']

/-- Printed decimal digits are a decimal literal, without a sign and with one (R52). -/
theorem parseLiteral_toDigits (n : Nat) :
    parseLiteral (Nat.toDigits 10 n) = some (.dec n) ∧
    parseLiteral ('-' :: Nat.toDigits 10 n) = some (.dec (-(n : Int))) := by
  have hne : Nat.toDigits 10 n ≠ [] := Nat.toDigits_ne_nil
  refine ⟨parseLiteral_of_parseDigits hne (parseDigits_toDigits n), ?_⟩
  rw [parseLiteral, parseNumber_eq_some_iff.2 ⟨hne, parseDigits_toDigits n⟩]
  rfl

/-- Printed hexadecimal digits are read as the low digits of the number they print. -/
theorem parseDigits_hexDigits (width n acc : Nat) :
    parseDigits 16 ((List.range width).reverse.map (fun k => hexDigit (n / 16 ^ k % 16))) acc =
      some (acc * 16 ^ width + n % 16 ^ width) := by
  induction width generalizing acc with
  | zero => simp [parseDigits, Nat.mod_one]
  | succ k ih =>
    have hmod : n / 16 ^ k % 16 < 16 := Nat.mod_lt _ (by decide)
    rw [List.range_succ, List.reverse_append, List.reverse_singleton, List.singleton_append,
      List.map_cons, parseDigits_cons (digitValue_hexDigit _ hmod) hmod, ih, Nat.mod_pow_succ]
    congr 1
    ring

/-- `0x` and enough hexadecimal digits are a hexadecimal literal (R52). -/
theorem parseLiteral_hexText {width n : Nat} (hw : 0 < width) (h : n < 16 ^ width) :
    parseLiteral (hexText width n) = some (.hex n) := by
  have hne : (List.range width).reverse.map (fun k => hexDigit (n / 16 ^ k % 16)) ≠ [] := by
    simpa using hw.ne'
  have hdigits := parseDigits_hexDigits width n 0
  rw [Nat.zero_mul, Nat.zero_add, Nat.mod_eq_of_lt h] at hdigits
  simp only [hexText, parseLiteral, parseNumber_eq_some_iff.2 ⟨hne, hdigits⟩, Option.map_some]

/-- Settles O57: the ranges command by command, then mnemonics, lines and literals. -/
theorem assemblerAcceptsExactlyTheRanges : Obligations.AssemblerAcceptsExactlyTheRanges := by
  obtain ⟨alawEncDec, alawEncHex⟩ := assemble_sample (mn := .alawEnc) (fun _ => rfl)
    fun x => encode_eq_fieldsWord (i := .alawEnc x) (bits16_toNat x)
  obtain ⟨ulawEncDec, ulawEncHex⟩ := assemble_sample (mn := .ulawEnc) (fun _ => rfl)
    fun x => encode_eq_fieldsWord (i := .ulawEnc x) (bits16_toNat x)
  obtain ⟨alawDecDec, alawDecHex⟩ := assemble_unsigned (mn := .alawDec) (fun _ => rfl)
    fun c hc => encode_eq_fieldsWord (i := .alawDec 0 c) (zero_append_toNat hc)
  obtain ⟨ulawDecDec, ulawDecHex⟩ := assemble_unsigned (mn := .ulawDec) (fun _ => rfl)
    fun c hc => encode_eq_fieldsWord (i := .ulawDec 0 c) (zero_append_toNat hc)
  obtain ⟨segSearchDec, segSearchHex⟩ := assemble_unsigned (mn := .segSearch) (fun _ => rfl)
    fun m hm => encode_eq_fieldsWord (i := .segSearch m) (zext16_toNat (Nat.lt_succ_of_le hm))
  refine ⟨fun v => ⟨alawEncDec v, ulawEncDec v, alawDecDec v, ulawDecDec v, segSearchDec v⟩,
    fun v => ⟨alawEncHex v, ulawEncHex v, alawDecHex v, ulawDecHex v, segSearchHex v⟩,
    parseMnemonic_eq_some_iff, fun t l mn ht hl0 hl => ?_, parseLiteral_toDigits,
    fun _ _ => parseLiteral_hexText⟩
  rw [assembleText, parseLine_cmd ht hl0 hl, Option.bind_map]
  rfl

/-! ### Re-assembly -/

/-- The printed digits of the literal hold its value: a hexadecimal one fits in the given width. -/
def Literal.Fits (width : Nat) : Literal → Prop
  | .dec _ => True
  | .hex n => n < 16 ^ width

/-- The printed digits of the line hold its operand or its word. -/
def AsmLine.Fits : AsmLine → Prop
  | .cmd mn l => l.Fits (hexWidth mn)
  | .word v => v < 16 ^ 8

/-- A printed literal is read back. -/
theorem parseLiteral_text {width : Nat} (hw : 0 < width) {l : Literal} (h : l.Fits width) :
    parseLiteral (l.text width) = some l := by
  cases l with
  | hex n => exact parseLiteral_hexText hw h
  | dec v =>
    obtain ⟨hpos, hneg⟩ := parseLiteral_toDigits v.natAbs
    rw [Literal.text]
    split
    · rw [hneg]; congr 2; omega
    · rw [hpos]; congr 2; omega

/-- A printed line is read back (R52, R53). -/
theorem parseLine_text {line : AsmLine} (h : line.Fits) : parseLine line.text = some line := by
  cases line with
  | cmd mn l =>
    have hl := parseLiteral_text (by cases mn <;> decide) h
    have hmn : (mnemonicText mn).map Char.toUpper = mnemonicText mn := by cases mn <;> decide
    rw [AsmLine.text, parseLine_cmd hmn (ne_nil_of_parseLiteral hl) (space_notMem_of_parseLiteral hl),
      hl, Option.map_some]
  | word v =>
    have hl := parseLiteral_hexText (by decide) h
    exact parseLine_word hl (ne_nil_of_parseLiteral hl) (space_notMem_of_parseLiteral hl)

/-- The text of a line assembles to what the line assembles to. -/
theorem assembleText_text {line : AsmLine} (h : line.Fits) : assembleText line.text = assemble line := by
  rw [assembleText, parseLine_text h, Option.bind_some]

/-- `.word` emits any word (R53). -/
theorem assemble_word (w : Cmd) : assemble (.word w.toNat) = some w := by
  rw [assemble, if_pos w.isLt, BitVec.ofNat_toNat, BitVec.setWidth_eq]

/-- An illegal word is printed as `.word` (R53). -/
theorem disassemble_of_illegal {w : Cmd} (h : legalWord w = false) : disassemble w = .word w.toNat := by
  cases e : decode w with
  | instr i => rw [(legalWord_iff w).2 ⟨i, e⟩] at h; cases h
  | rsvdNonzero => rw [disassemble, e]
  | opReserved => rw [disassemble, e]

/-- A decoder word with a nonzero high byte is printed as `.word` (R53). -/
theorem disassemble_of_highByte {w : Cmd} {hi c : Nat} (hhi : 0 < hi)
    (h : decode w = .instr (.alawDec hi c) ∨ decode w = .instr (.ulawDec hi c)) :
    disassemble w = .word w.toNat := by
  rcases h with e | e <;> simp only [disassemble, e, if_neg hhi.ne']

/-- A sample in decimal is accepted (R52). -/
theorem assembleSample_dec {x : Int} (h : isSample x = true) : assembleSample (.dec x) = some x :=
  if_pos (by simpa [isSample] using h)

/-- An unsigned operand in range, in hexadecimal, is accepted (R52). -/
theorem assembleUnsigned_hex {top v : Nat} (h : v ≤ top) : assembleUnsigned top (.hex v) = some v :=
  if_pos h

/-- What a disassembler prints for a word (R53): `.word`, or the mnemonic of the word's command with a
literal that assembles to the command and fits its digits. -/
theorem disassemble_cases (w : Cmd) :
    disassemble w = .word w.toNat ∨
    ∃ i l, decode w = .instr i ∧ disassemble w = .cmd i.mnemonic l ∧
      assembleInstr i.mnemonic l = some i ∧ l.Fits (hexWidth i.mnemonic) := by
  cases e : decode w with
  | rsvdNonzero => exact .inl (by rw [disassemble, e])
  | opReserved => exact .inl (by rw [disassemble, e])
  | instr i =>
    have hwf := wellFormed_of_decode e
    cases i with
    | alawEnc x =>
      exact .inr ⟨_, .dec x, rfl, by rw [disassemble, e]; rfl,
        congrArg (Option.map Instr.alawEnc) (assembleSample_dec hwf), trivial⟩
    | ulawEnc x =>
      exact .inr ⟨_, .dec x, rfl, by rw [disassemble, e]; rfl,
        congrArg (Option.map Instr.ulawEnc) (assembleSample_dec hwf), trivial⟩
    | alawDec hi c =>
      obtain rfl | hhi := Nat.eq_zero_or_pos hi
      · rw [Instr.wellFormed, Bool.and_eq_true] at hwf
        have hc : c ≤ 255 := of_decide_eq_true hwf.2
        exact .inr ⟨_, .hex c, rfl, by rw [disassemble, e]; rfl,
          congrArg (Option.map (Instr.alawDec 0)) (assembleUnsigned_hex hc), Nat.lt_succ_of_le hc⟩
      · exact .inl (disassemble_of_highByte hhi (.inl e))
    | ulawDec hi c =>
      obtain rfl | hhi := Nat.eq_zero_or_pos hi
      · rw [Instr.wellFormed, Bool.and_eq_true] at hwf
        have hc : c ≤ 255 := of_decide_eq_true hwf.2
        exact .inr ⟨_, .hex c, rfl, by rw [disassemble, e]; rfl,
          congrArg (Option.map (Instr.ulawDec 0)) (assembleUnsigned_hex hc), Nat.lt_succ_of_le hc⟩
      · exact .inl (disassemble_of_highByte hhi (.inr e))
    | segSearch m =>
      have hm : m ≤ 65535 := of_decide_eq_true hwf
      exact .inr ⟨_, .hex m, rfl, by rw [disassemble, e]; rfl,
        congrArg (Option.map Instr.segSearch) (assembleUnsigned_hex hm), Nat.lt_succ_of_le hm⟩

/-- What the disassembler prints for a word assembles to the word (R53). -/
theorem assemble_disassemble (w : Cmd) : assemble (disassemble w) = some w := by
  rcases disassemble_cases w with e | ⟨i, l, hdec, e, hl, _⟩
  · rw [e, assemble_word]
  · rw [e, assemble, hl, Option.map_some, encode_of_decode hdec]

/-- What the disassembler prints for a word fits its digits. -/
theorem disassemble_fits (w : Cmd) : (disassemble w).Fits := by
  rcases disassemble_cases w with e | ⟨i, l, _, e, _, hfits⟩ <;> rw [e]
  · exact w.isLt
  · exact hfits

/-- The printed hexadecimal digits, most significant first. -/
theorem hexText_getElem? {width k : Nat} (n : Nat) (h : k < width) :
    (hexText width n)[2 + k]? = some (hexDigit (n / 16 ^ (width - 1 - k) % 16)) := by
  rw [hexText, Nat.add_comm, List.getElem?_cons_succ, List.getElem?_cons_succ]
  simp [h]

/-- Settles O58: the form of a `.word` line, then both kinds of printed line, as lines and as
text. -/
theorem reassemblyReproducesEveryWord : Obligations.ReassemblyReproducesEveryWord := by
  intro w
  have hfits : (AsmLine.word w.toNat).Fits := w.isLt
  refine ⟨by simp [AsmLine.text, wordDirective, hexText], rfl, fun k hk => ?_, assemble_word w,
    assemble_disassemble w, ?_, ?_, disassemble_of_illegal, fun _ _ => disassemble_of_highByte⟩
  · have hword : (AsmLine.word w.toNat).text[8 + k]? = (hexText 8 w.toNat)[2 + k]? := by
      rw [show 8 + k = 2 + k + 6 by omega]
      rfl
    rw [hword, hexText_getElem? _ hk]
  · rw [assembleText_text hfits, assemble_word]
  · rw [assembleText_text (disassemble_fits w), assemble_disassemble]

end Sys2Proof.Machine
end

section
/-! PROOFS. The statements of 41_segment_search.md: the closed forms of the search, its comparator form,
its boundaries, its inputs inside the encoders, and the command SEG_SEARCH. -/

namespace Sys2Proof.Machine

/-! ### The boundaries as powers of two -/

/-- The boundaries are the powers of two from `2^8` on, less 1 (R58). -/
theorem boundary_getElem? : ∀ i < 8, boundary[i]? = some (2 ^ (i + 8) - 1) := by decide

/-- The comparison with a boundary is one with the power of two above it (R58). -/
theorem le_two_pow_sub_one_iff (m k : Nat) : m ≤ 2 ^ k - 1 ↔ m < 2 ^ k :=
  Nat.le_sub_one_iff_lt (Nat.two_pow_pos k)

/-- A shift gives 0 exactly on the magnitudes below the power of two. -/
theorem shiftRight_eq_zero_iff_lt_two_pow (m k : Nat) : m >>> k = 0 ↔ m < 2 ^ k := by
  rw [Nat.shiftRight_eq_div_pow, Nat.div_eq_zero_iff_lt (Nat.two_pow_pos k)]

/-- The boundaries ascend (R59). -/
theorem boundary_pairwise_le : boundary.Pairwise (· ≤ ·) := by decide

/-- On an ascending table the scan stops by place `k` exactly if the magnitude passes the test there. -/
theorem scan_le_iff (m : Nat) {bs : List Nat} (hbs : bs.Pairwise (· ≤ ·)) {k c : Nat}
    (hc : bs[k]? = some c) : scan m bs ≤ k ↔ m ≤ c := by
  induction bs generalizing k with
  | nil => cases hc
  | cons b bs ih =>
    obtain ⟨hb, hbs⟩ := List.pairwise_cons.1 hbs
    rw [scan]
    cases k with
    | zero => cases hc; split <;> omega
    | succ k =>
      rw [List.getElem?_cons_succ] at hc
      have hbc : b ≤ c := hb c (List.mem_of_getElem? hc)
      split
      · omega
      · rw [Nat.add_le_add_iff_right, ih hbs hc]

/-- What the search answers, as bounds on the magnitude: the closed forms follow from it. -/
theorem seg_le_iff {m k : Nat} (hm : m ≤ 65535) (hk : k ≤ 8) : seg m ≤ k ↔ m < 2 ^ (k + 8) := by
  obtain hk | rfl := Nat.lt_or_eq_of_le hk
  · rw [seg, scan_le_iff m boundary_pairwise_le (boundary_getElem? k hk), le_two_pow_sub_one_iff]
  · exact iff_of_true (seg_le_eight m) (Nat.lt_succ_of_le hm)

/-- Segment `k + 1` is the range between two powers of two (R58). -/
theorem seg_eq_succ_iff {m k : Nat} (hm : m ≤ 65535) (hk : k + 1 ≤ 8) :
    seg m = k + 1 ↔ 2 ^ (k + 8) ≤ m ∧ m < 2 ^ (k + 1 + 8) := by
  rw [← seg_le_iff hm hk, ← not_lt, ← seg_le_iff hm (Nat.le_of_succ_le hk)]
  omega

/-- Segment 0 is the range up to the first boundary (R58). -/
theorem seg_eq_zero_iff {m : Nat} (hm : m ≤ 65535) : seg m = 0 ↔ m ≤ 255 := by
  rw [← Nat.le_zero, seg_le_iff hm (Nat.zero_le 8)]
  omega

/-! ### The closed forms -/

/-- The segment is the binary logarithm less 7, cut at 0: both have the same upper bounds. -/
theorem seg_eq_log2_sub {m : Nat} (hm : m ≤ 65535) : seg m = Nat.log2 m - 7 := by
  obtain rfl | hm0 := eq_or_ne m 0
  · decide
  refine eq_of_forall_ge_iff fun k => ?_
  have hlog : Nat.log2 m < 16 := (Nat.log2_lt hm0).2 (by omega)
  by_cases hk : k ≤ 8
  · rw [seg_le_iff hm hk, ← Nat.log2_lt hm0]
    omega
  · exact iff_of_true (by have := seg_le_eight m; omega) (by omega)

/-- The search answers its closed form (R58). -/
theorem seg_eq_segClosed {m : Nat} (hm : m ≤ 65535) : seg m = segClosed m := by
  rw [segClosed]
  split
  · next h => exact (seg_eq_zero_iff hm).2 h
  · exact seg_eq_log2_sub hm

/-- The search answers what the leading 1 of the high byte gives (R58, R59). -/
theorem seg_eq_leadingOne {m : Nat} (hm : m ≤ 65535) :
    seg m = if m / 256 = 0 then 0 else 1 + Nat.log2 (m / 256) := by
  split
  · next h => exact (seg_eq_zero_iff hm).2 (by omega)
  · next h =>
    have hlog : Nat.log2 (m / 256) = Nat.log2 m - 8 := by
      rw [Nat.log2_eq_log_two, Nat.log2_eq_log_two]
      exact Nat.log_div_base_pow 2 m 8
    have hle : 8 ≤ Nat.log2 m := (Nat.le_log2 (by omega)).2 (by omega)
    rw [seg_eq_log2_sub hm, hlog]
    omega

/-- Settles O24: the boundaries are powers of two less 1, and the search is known by its upper bounds. -/
theorem segmentClosedForms : Obligations.SegmentClosedForms := by
  refine ⟨boundary_getElem?, fun m hm => ⟨seg_eq_segClosed hm, fun i hi b hb => ?_,
    seg_eq_leadingOne hm, fun k hk1 hk8 => ?_, seg_eq_zero_iff hm⟩⟩
  · rw [boundary_getElem? i hi] at hb
    cases hb
    rw [shiftRight_eq_zero_iff_lt_two_pow]
    exact ⟨le_two_pow_sub_one_iff m _, le_two_pow_sub_one_iff m _⟩
  · obtain ⟨j, rfl⟩ := Nat.exists_eq_add_of_le' hk1
    rw [le_two_pow_sub_one_iff]
    exact seg_eq_succ_iff hm hk8

/-- Settles O26: the magnitudes around each boundary. -/
theorem boundariesSeparateSegments : Obligations.BoundariesSeparateSegments := by
  have haround : ∀ i < 8, seg (2 ^ (i + 8) - 1) = i ∧ seg (2 ^ (i + 8) - 1 + 1) = i + 1 := by decide
  intro i hi b hb
  rw [boundary_getElem? i hi] at hb
  cases hb
  exact haround i hi

/-! ### The comparators -/

/-- A comparator is a comparison with a power of two. -/
theorem comparators_getElem? (m : Nat) {i : Nat} (hi : i < 8) :
    (comparators m)[i]? = some (decide (m < 2 ^ (i + 8))) := by
  rw [comparators, List.getElem?_map, boundary_getElem? i hi, Option.map_some,
    decide_eq_decide.2 (le_two_pow_sub_one_iff m _)]

/-- The scan finds the place of the first 1 among the comparisons with a table, or its length. -/
theorem scan_eq_findIdx (m : Nat) (bs : List Nat) :
    scan m bs = (bs.map (fun b => decide (m ≤ b))).findIdx (fun k => k) := by
  induction bs with
  | nil => rfl
  | cons b bs ih =>
    rw [scan, ih, List.map_cons, List.findIdx_cons]
    by_cases h : m ≤ b <;> simp [h]

/-- On an ascending table the scan counts the comparisons that fail. -/
theorem scan_eq_count_false (m : Nat) {bs : List Nat} (hbs : bs.Pairwise (· ≤ ·)) :
    scan m bs = (bs.map (fun b => decide (m ≤ b))).count false := by
  induction bs with
  | nil => rfl
  | cons b bs ih =>
    obtain ⟨hb, hbs⟩ := List.pairwise_cons.1 hbs
    rw [scan, ih hbs, List.map_cons, List.count_cons]
    by_cases h : m ≤ b
    · have hpass : ∀ c ∈ bs, m ≤ c := fun c hc => h.trans (hb c hc)
      simpa [h, eq_comm (a := 0), List.count_eq_zero] using hpass
    · simp [h]

/-- Settles O25: the comparators are the comparisons the scan makes, with ascending powers of two. -/
theorem comparatorFormGivesSegment : Obligations.ComparatorFormGivesSegment := by
  intro m hm
  refine ⟨fun i hi h => ?_, scan_eq_findIdx m boundary, scan_eq_count_false m boundary_pairwise_le, ?_⟩
  · rw [comparators_getElem? m (by omega), Option.some_inj, decide_eq_true_iff] at h ⊢
    exact h.trans (Nat.pow_lt_pow_right (by decide) (by omega))
  · rw [segLeadingOne, Nat.mod_eq_of_lt (by omega)]
    exact seg_eq_leadingOne hm

/-! ### Inside the encoders -/

/-- The magnitude of the A-law encoder has 15 bits (R60). -/
theorem alawMagnitude_le {x : Int} (h0 : -32768 ≤ x) (h1 : x ≤ 32767) : alawMagnitude x ≤ 32767 := by
  rw [alawMagnitude]
  split
  · omega
  · split <;> omega

/-- The magnitude of the μ-law encoder is the exact one. -/
theorem ulawMagnitude_eq_natAbs (x : Int) : ulawMagnitude x = x.natAbs := by
  rw [ulawMagnitude]
  split <;> omega

/-- The bias and the clamp of the μ-law encoder. -/
theorem ulawBiased_eq_min (m : Nat) : ulawBiased m = min (m + 132) 32767 := by
  simp only [ulawBiased]
  split <;> omega

/-- Settles O27: the ranges of both magnitudes, and a magnitude of 15 bits stays inside the table. -/
theorem encoderSearchInputsAreInRange : Obligations.EncoderSearchInputsAreInRange := by
  intro x h0 h1
  have halaw := alawMagnitude_le h0 h1
  rw [ulawBiased_eq_min, ulawMagnitude_eq_natAbs]
  exact ⟨halaw, seg_le_seven halaw, by omega, by omega, seg_le_seven (by omega), by omega, by omega⟩

/-! ### The command -/

/-- Settles O28: SEG_SEARCH writes the segment, which is its closed form. -/
theorem segSearchWritesSegment : Obligations.SegSearchWritesSegment := by
  intro m s hm
  calc exec (.segSearch m) s
      _ = .next (s.writeResult (zext16 (seg m))) := exec_eq _ s
      _ = .next (s.writeResult (zext16 (segClosed m))) := by rw [seg_eq_segClosed hm]
      _ = _ := rfl

end Sys2Proof.Machine
end

section
/-! PROOFS. The statement of 42_alaw.md on every step: RESULT stays in the range of the operations (R68,
and 43_mulaw.md R81) while the power stays. -/

namespace Sys2Proof.Machine

/-- The pattern denotes a value in the range of the operations under a decoder rule: what `State.Inv` says
of RESULT. -/
def InRange (r : MulawDecodeRule) (p : Half) : Prop := -(resultLimit r) ≤ s16 p ∧ s16 p ≤ resultLimit r

/-- The range of either rule holds the samples of the A-law decoder. -/
theorem le_resultLimit (r : MulawDecodeRule) : 32256 ≤ resultLimit r := by
  cases r <;> decide

/-- The samples of the μ-law decoder of a rule are in the range of that rule (43_mulaw.md R81, R82). -/
theorem ulawDecode_range (r : MulawDecodeRule) (c : Nat) :
    -(resultLimit r) ≤ ulawDecode r c ∧ ulawDecode r c ≤ resultLimit r := by
  cases r with
  | g711 => exact ulawDecodeG711_range c
  | docLiteral => exact ulawDecodeDoc_range c

/-- A sample in the range of the operations is a 16-bit sample, so its pattern denotes it. -/
theorem inRange_bits16 {r : MulawDecodeRule} {v : Int} (h0 : -(resultLimit r) ≤ v)
    (h1 : v ≤ resultLimit r) : InRange r (bits16 v) := by
  have hlim : resultLimit r ≤ 32512 := by cases r <;> decide
  rw [InRange, s16_bits16 (by omega) (by omega)]
  exact ⟨h0, h1⟩

/-- A code or a segment is in the range of the operations. -/
theorem inRange_zext16 (r : MulawDecodeRule) {v : Nat} (h : v < 256) : InRange r (zext16 v) := by
  have hlim := le_resultLimit r
  rw [InRange, s16_zext16 (by omega)]
  omega

/-- Every command's result is in the range of the operations, whatever its operand. -/
theorem inRange_resultValue (cfg : Config) (i : Instr) : InRange cfg.mulawDecodeRule (resultValue cfg i) := by
  cases i with
  | alawEnc x => exact inRange_zext16 _ (alawEncode_lt x)
  | alawDec hi c =>
    obtain ⟨h0, h1⟩ := alawDecode_range c
    have hlim := le_resultLimit cfg.mulawDecodeRule
    exact inRange_bits16 (by omega) (by omega)
  | ulawEnc x => exact inRange_zext16 _ (ulawEncode_lt x)
  | ulawDec hi c =>
    obtain ⟨h0, h1⟩ := ulawDecode_range cfg.mulawDecodeRule c
    exact inRange_bits16 h0 h1
  | segSearch m => exact inRange_zext16 _ (by have := seg_le_eight m; omega)

/-- A host action other than a loss of power keeps RESULT in range: it leaves RESULT, writes a command's
result to it, or resets it to 0. -/
theorem perform_inRange {a : HostAct} {s t : State} (ha : a.losesPower = false)
    (h : perform a s = .next t) (hr : InRange s.config.mulawDecodeRule s.result) :
    InRange t.config.mulawDecodeRule t.result := by
  obtain ⟨hcfg, hcases⟩ := perform_core h
  rw [hcfg]
  obtain ⟨e, -⟩ | ⟨w, i, -, -, e, -⟩ | ⟨w, -, -, e, -⟩ | ⟨ws, -, e, -⟩ | ⟨d, rfl, -⟩ := hcases
  · exact e ▸ hr
  · exact e ▸ inRange_resultValue s.config i
  · exact e ▸ hr
  · exact e ▸ inRange_zext16 _ (v := 0) (by decide)
  · cases ha

/-- No loss of power among the pending actions: neither the next one nor a later one. -/
theorem powerStays_cons {s : State} {a : HostAct} {as : List HostAct} (h : s.inputs = a :: as) :
    s.powerStays = true ↔ a.losesPower = false ∧ (s.withInputs as).powerStays = true := by
  simp [State.powerStays, h]

/-- Settles O49: a step performs the next action, which is no loss of power and adds none. -/
theorem everyStepKeepsResultInRange : Obligations.EveryStepKeepsResultInRange := by
  rintro s t ⟨hp, hr⟩ h
  cases hs : s.inputs with
  | nil =>
    rw [step_nil hs] at h
    cases h
    exact ⟨hp, hr⟩
  | cons a as =>
    rw [step_cons hs] at h
    obtain ⟨ha, hp⟩ := (powerStays_cons hs).1 hp
    exact ⟨perform_powerStays h hp, perform_inRange ha h hr⟩

end Sys2Proof.Machine
end

section
/-! PROOFS. The statements of 42_alaw.md: the encoder and the decoder of A-law in their closed forms, and
what they do to each other. Both turn on the intervals of magnitudes that share a 7-bit value. -/

namespace Sys2Proof.Machine

/-! ### The intervals of the encoder -/

/-- The quotient that the first interval of a segment has by the segment's interval length. -/
def alawLead (s : Nat) : Nat := if s = 0 then 0 else 16

/-- The length of an interval in a segment (42_alaw.md R69). -/
def alawStep (s : Nat) : Nat := if s = 0 then 16 else 2 ^ (s + 3)

/-- The smallest magnitude of the interval of segment `s` and nibble `q` (R69). -/
def alawLow (s q : Nat) : Nat := (alawLead s + q) * alawStep s

theorem alawStep_pos (s : Nat) : 0 < alawStep s := by
  rw [alawStep]
  split
  · decide
  · exact Nat.two_pow_pos _

/-- The nibble of the bit form is the quotient by the interval length, in 4 bits (R62). -/
theorem alawNibble_eq_div_mod (m : Nat) : alawNibble m = m / alawStep (seg m) % 16 := by
  rw [alawNibble, alawStep]
  split <;> rfl

theorem alawNibble_lt (m : Nat) : alawNibble m < 16 := by
  rw [alawNibble_eq_div_mod]
  exact Nat.mod_lt _ (by decide)

/-- A segment is the range of 16 intervals of its length. -/
theorem seg_eq_iff_div_alawStep {m s : Nat} (hm : m ≤ 32767) (hs : s < 8) :
    seg m = s ↔ alawLead s ≤ m / alawStep s ∧ m / alawStep s < alawLead s + 16 := by
  cases s with
  | zero =>
    rw [seg_eq_zero_iff (by omega)]
    simp only [alawLead, alawStep, if_true]
    omega
  | succ k =>
    have hpos := alawStep_pos (k + 1)
    rw [seg_eq_succ_iff (by omega) (by omega), Nat.le_div_iff_mul_le hpos, Nat.div_lt_iff_lt_mul hpos]
    simp only [alawLead, alawStep, Nat.succ_ne_zero, if_false, pow_succ]
    omega

/-- Inside its segment a magnitude is known by its nibble up to the interval length. -/
theorem div_alawStep_seg {m : Nat} (hm : m ≤ 32767) :
    m / alawStep (seg m) = alawLead (seg m) + alawNibble m := by
  have h := (seg_eq_iff_div_alawStep hm (Nat.lt_succ_of_le (seg_le_seven hm))).1 rfl
  have hlead : alawLead (seg m) % 16 = 0 := by rw [alawLead]; split <;> rfl
  rw [alawNibble_eq_div_mod]
  omega

/-- A shift and the nibble mask as a quotient and a remainder. -/
theorem shiftRight_and_nibble (m k : Nat) : (m >>> k) &&& 0xF = m / 2 ^ k % 16 := by
  rw [Nat.shiftRight_eq_div_pow]
  exact Nat.and_two_pow_sub_one_eq_mod _ 4

/-- Step 4 of R62 computes the nibble of the bit form: its two shifts agree in segment 1. -/
theorem alawQuantization_eq_alawNibble (m : Nat) :
    (if seg m < 2 then (m >>> 4) &&& 0xF else (m >>> (seg m + 3)) &&& 0xF) = alawNibble m := by
  simp only [shiftRight_and_nibble, alawNibble]
  obtain h0 | h1 | h2 : seg m = 0 ∨ seg m = 1 ∨ 2 ≤ seg m := by omega
  · simp [h0]
  · simp [h1]
  · rw [if_neg (by omega), if_neg (by omega)]

/-- A segment and a nibble packed by a shift are packed by a product. -/
theorem shiftLeft_or_nibble_eq (s : Nat) {q : Nat} (hq : q < 16) : (s <<< 4) ||| q = 16 * s + q := by
  rw [← Nat.shiftLeft_add_eq_or_of_lt hq, Nat.shiftLeft_eq]
  omega

/-- The 7-bit value of the encoder is its segment and its nibble (R62). -/
theorem alawBody_eq {m : Nat} (hm : m ≤ 32767) : alawBody m = 16 * seg m + alawNibble m := by
  have hs : ¬ 8 ≤ seg m := by have := seg_le_seven hm; omega
  simp only [alawBody, if_neg hs, alawQuantization_eq_alawNibble,
    shiftLeft_or_nibble_eq _ (alawNibble_lt m)]

/-- The magnitudes that encode to a 7-bit value are an interval (R69). -/
theorem alawBody_eq_iff {m s q : Nat} (hm : m ≤ 32767) (hs : s < 8) (hq : q < 16) :
    alawBody m = 16 * s + q ↔ alawLow s q ≤ m ∧ m ≤ alawLow s q + alawStep s - 1 := by
  rw [alawLow, ← Nat.div_eq_iff (alawStep_pos s), alawBody_eq hm]
  have hnib := alawNibble_lt m
  have hdiv := div_alawStep_seg hm
  constructor
  · intro h
    obtain ⟨rfl, rfl⟩ : seg m = s ∧ alawNibble m = q := by omega
    exact hdiv
  · intro h
    have hseg : seg m = s := (seg_eq_iff_div_alawStep hm hs).2 (by omega)
    rw [hseg] at hdiv ⊢
    omega

/-- A magnitude lies in the interval of its segment and nibble. -/
theorem mem_alawInterval {m : Nat} (hm : m ≤ 32767) :
    alawLow (seg m) (alawNibble m) ≤ m ∧
      m ≤ alawLow (seg m) (alawNibble m) + alawStep (seg m) - 1 :=
  (alawBody_eq_iff hm (Nat.lt_succ_of_le (seg_le_seven hm)) (alawNibble_lt m)).1 (alawBody_eq hm)

/-- A larger magnitude has a larger segment, or in the same segment no smaller quotient (R66). -/
theorem alawBody_mono {m n : Nat} (hmn : m ≤ n) (hn : n ≤ 32767) : alawBody m ≤ alawBody n := by
  have hm : m ≤ 32767 := hmn.trans hn
  have hnib := alawNibble_lt m
  rw [alawBody_eq hm, alawBody_eq hn]
  obtain hlt | heq := (seg_mono hmn).lt_or_eq
  · omega
  · have hdiv : m / alawStep (seg n) ≤ n / alawStep (seg n) := Nat.div_le_div_right hmn
    rw [div_alawStep_seg hn, ← heq, div_alawStep_seg hm] at hdiv
    omega

/-! ### The decoded magnitudes as midpoints -/

/-- The error bound of a segment is half its interval length (R69, R71). -/
theorem alawStep_eq_two_mul_alawErrorBound (s : Nat) : (alawStep s : Int) = 2 * alawErrorBound s := by
  rcases s with _ | _ | k
  · rfl
  · rfl
  · simp [alawStep, alawErrorBound]
    ring

/-- No interval is shorter than those of segment 0. -/
theorem eight_le_alawErrorBound (s : Nat) : 8 ≤ alawErrorBound s := by
  rw [alawErrorBound]
  split
  · exact le_rfl
  · calc (8 : Int) = 2 ^ 3 := rfl
      _ ≤ 2 ^ (s + 2) := pow_le_pow_right₀ (by decide) (by omega)

/-- The decoded magnitude is the upper middle of its interval (R69). -/
theorem alawClosedMagnitude_eq_midpoint (s q : Nat) :
    (alawClosedMagnitude s q : Int) = alawLow s q + alawErrorBound s := by
  rcases s with _ | _ | k
  · simp [alawClosedMagnitude, alawLow, alawLead, alawStep, alawErrorBound, mul_comm]
  · simp [alawClosedMagnitude, alawLow, alawLead, alawStep, alawErrorBound]
    ring
  · simp [alawClosedMagnitude, alawLow, alawLead, alawStep, alawErrorBound]
    ring

/-- Step 3 of R67 computes the closed form (R69). -/
theorem alawDecodedMagnitude_eq (s q : Nat) : alawDecodedMagnitude s q = alawClosedMagnitude s q := by
  rcases s with _ | _ | k
  · simp [alawDecodedMagnitude, alawClosedMagnitude, Nat.shiftLeft_eq, mul_comm]
  · simp [alawDecodedMagnitude, alawClosedMagnitude, Nat.shiftLeft_eq, mul_comm]
  · simp [alawDecodedMagnitude, alawClosedMagnitude, Nat.shiftLeft_eq]
    ring

/-- The closed form stays inside 32256 (R69). -/
theorem alawClosedMagnitude_le {s q : Nat} (hs : s < 8) (hq : q < 16) : alawClosedMagnitude s q ≤ 32256 := by
  rw [← alawDecodedMagnitude_eq]
  exact alawDecodedMagnitude_le (Nat.le_of_lt_succ hs) (Nat.le_of_lt_succ hq)

theorem eight_le_alawClosedMagnitude (s q : Nat) : 8 ≤ alawClosedMagnitude s q := by
  have hmid := alawClosedMagnitude_eq_midpoint s q
  have hE := eight_le_alawErrorBound s
  omega

/-- A decoded magnitude and the one below it, which a negative sample encodes, have the 7-bit value they
were decoded from (R70). -/
theorem alawBody_of_near_midpoint {s q m : Nat} (hs : s < 8) (hq : q < 16)
    (h0 : alawClosedMagnitude s q ≤ m + 1) (h1 : m ≤ alawClosedMagnitude s q) :
    alawBody m = 16 * s + q := by
  have hle := alawClosedMagnitude_le hs hq
  have hmid := alawClosedMagnitude_eq_midpoint s q
  have hE := eight_le_alawErrorBound s
  have hstep := alawStep_eq_two_mul_alawErrorBound s
  rw [alawBody_eq_iff (by omega) hs hq]
  omega

/-! ### Samples and codes -/

/-- The clamp of the magnitude is never taken (R64). -/
theorem alawMagnitude_eq (x : Int) : alawMagnitude x = if 0 ≤ x then x.toNat else (-x - 1).toNat := by
  rw [alawMagnitude]
  split
  · rfl
  · rw [if_neg (by omega)]

/-- The magnitude of a sample that is not negative (R62). -/
@[simp] theorem alawMagnitude_natCast (m : Nat) : alawMagnitude (m : Int) = m := by
  rw [alawMagnitude_eq, if_pos (Int.natCast_nonneg m), Int.toNat_natCast]

/-- The magnitude of a negative sample is its one's complement (R62). -/
@[simp] theorem alawMagnitude_negSucc (m : Nat) : alawMagnitude (Int.negSucc m) = m := by
  rw [alawMagnitude_eq, if_neg (by omega)]
  omega

/-- The code of a sample that is not negative (R62). -/
theorem alawEncode_natCast (m : Nat) : alawEncode (m : Int) = alawBody m ^^^ 0xD5 := by
  rw [alawEncode, alawMagnitude_natCast, alawMask, if_pos (by omega)]

/-- The code of a negative sample (R62). -/
theorem alawEncode_negSucc (m : Nat) : alawEncode (Int.negSucc m) = alawBody m ^^^ 0x55 := by
  rw [alawEncode, alawMagnitude_negSucc, alawMask, if_neg (by omega)]

/-- The field `SEG` of a code with the inversion undone (R67). -/
def alawCodeSegment (c : Nat) : Nat := (c ^^^ 0x55) / 16 % 8

/-- The field `Q` of a code with the inversion undone (R67). -/
def alawCodeNibble (c : Nat) : Nat := (c ^^^ 0x55) % 16

theorem alawCodeSegment_lt (c : Nat) : alawCodeSegment c < 8 := Nat.mod_lt _ (by decide)

theorem alawCodeNibble_lt (c : Nat) : alawCodeNibble c < 16 := Nat.mod_lt _ (by decide)

/-- The 7-bit value `{SEG, Q}` of a code. -/
theorem alawCodeFields_eq (c : Nat) : 16 * alawCodeSegment c + alawCodeNibble c = (c ^^^ 0x55) % 2 ^ 7 := by
  rw [alawCodeSegment, alawCodeNibble]
  omega

/-- A code is its 7-bit value under the mask of its sign (R62, R67). -/
theorem alawCodeFields_xor_mask {c : Nat} (hc : c ≤ 255) :
    (16 * alawCodeSegment c + alawCodeNibble c) ^^^ (if 128 ≤ c then 0xD5 else 0x55) = c := by
  rw [alawCodeFields_eq]
  generalize hmask : (if 128 ≤ c then 0xD5 else 0x55 : Nat) = mask
  have hlow : ((c ^^^ 0x55) % 2 ^ 7 ^^^ mask) % 2 ^ 7 = c % 2 ^ 7 := by
    have hm : mask % 2 ^ 7 = 0x55 := by rw [← hmask]; split <;> rfl
    rw [Nat.xor_mod_two_pow, Nat.mod_mod, Nat.xor_mod_two_pow, hm]
    exact Nat.xor_xor_cancel_right _ _
  have hhigh : ((c ^^^ 0x55) % 2 ^ 7 ^^^ mask) / 2 ^ 7 = c / 2 ^ 7 := by
    rw [Nat.xor_div_two_pow, Nat.div_eq_of_lt (Nat.mod_lt _ (by decide)), Nat.zero_xor, ← hmask]
    split <;> omega
  omega

/-- The encoder writes the segment and the nibble of the magnitude to the fields of the code (R48, R62). -/
theorem alawCodeFields_alawEncode {x : Int} (h0 : -32768 ≤ x) (h1 : x ≤ 32767) :
    alawCodeSegment (alawEncode x) = seg (alawMagnitude x) ∧
      alawCodeNibble (alawEncode x) = alawNibble (alawMagnitude x) := by
  have hbody : (alawEncode x ^^^ 0x55) % 2 ^ 7 = alawBody (alawMagnitude x) := by
    have hm : (alawMask x ^^^ 0x55) % 2 ^ 7 = 0 := by rw [alawMask]; split <;> rfl
    rw [alawEncode, Nat.xor_assoc, Nat.xor_mod_two_pow, hm, Nat.xor_zero, Nat.mod_eq_of_lt (alawBody_lt _)]
  rw [← alawCodeFields_eq, alawBody_eq (alawMagnitude_le h0 h1)] at hbody
  have := alawCodeNibble_lt (alawEncode x)
  have := alawNibble_lt (alawMagnitude x)
  omega

/-- Bit 7 of a byte. -/
theorem testBit_seven_eq {c : Nat} (hc : c ≤ 255) : c.testBit 7 = decide (128 ≤ c) := by
  rw [Nat.testBit_eq_decide_div_mod_eq]
  exact decide_eq_decide.2 (by omega)

/-- The codes of the samples that are not negative are those from 0x80 (30_encoding.md R50). -/
theorem le_alawEncode_iff (x : Int) : 128 ≤ alawEncode x ↔ 0 ≤ x := by
  have h := testBit_seven_eq (Nat.le_of_lt_succ (alawEncode_lt x))
  rw [alawEncode, testBit_seven_xor (alawBody_lt _), alawMask_testBit_seven, ← alawEncode] at h
  exact (decide_eq_decide.1 h).symm

/-- The decoder as a sign and the closed magnitude of the fields (R67, R69). -/
theorem alawDecode_eq {c : Nat} (hc : c ≤ 255) :
    alawDecode c =
      if 128 ≤ c then (alawClosedMagnitude (alawCodeSegment c) (alawCodeNibble c) : Int)
      else -(alawClosedMagnitude (alawCodeSegment c) (alawCodeNibble c) : Int) := by
  have hsign : c &&& 0x80 ≠ 0 ↔ 128 ≤ c := by
    rw [show 0x80 = 2 ^ 7 from rfl, Nat.and_two_pow, testBit_seven_eq hc]
    by_cases h : 128 ≤ c <;> simp [h]
  have hseg : ((c ^^^ 0x55) &&& 0x70) >>> 4 = alawCodeSegment c := by
    rw [Nat.shiftRight_and_distrib, Nat.shiftRight_eq_div_pow]
    exact Nat.and_two_pow_sub_one_eq_mod _ 3
  have hnib : (c ^^^ 0x55) &&& 0xF = alawCodeNibble c := Nat.and_two_pow_sub_one_eq_mod _ 4
  simp only [alawDecode, hseg, hnib, alawDecodedMagnitude_eq, hsign]

/-- Decoding a code that the encoder gave: the middle of the interval of the sample's magnitude, with the
sign of the sample (R71). -/
theorem alawDecode_alawEncode {x : Int} (h0 : -32768 ≤ x) (h1 : x ≤ 32767) :
    alawDecode (alawEncode x) =
      if 0 ≤ x then (alawClosedMagnitude (seg (alawMagnitude x)) (alawNibble (alawMagnitude x)) : Int)
      else -(alawClosedMagnitude (seg (alawMagnitude x)) (alawNibble (alawMagnitude x)) : Int) := by
  obtain ⟨hseg, hnib⟩ := alawCodeFields_alawEncode h0 h1
  rw [alawDecode_eq (Nat.le_of_lt_succ (alawEncode_lt x)), hseg, hnib]
  simp only [le_alawEncode_iff]

/-! ### The commands -/

/-- The magnitude from the sample's pattern: one's complement under the sign bit (R62). -/
theorem alawMagnitude_of_pattern {x : Int} (h0 : -32768 ≤ x) (h1 : x ≤ 32767) :
    (if (bits16 x).getLsbD 15 then ~~~bits16 x else bits16 x).toNat % 2 ^ 15 = alawMagnitude x := by
  have hlt := (bits16 x).isLt
  have hx := s16_bits16 h0 h1
  rw [s16] at hx
  by_cases hsign : (bits16 x).getLsbD 15
  · rw [if_pos hsign] at hx ⊢
    rw [BitVec.toNat_not, alawMagnitude_eq, if_neg (by omega)]
    omega
  · rw [if_neg hsign] at hx ⊢
    rw [alawMagnitude_eq, if_pos (by omega)]
    omega

/-- The number of a byte built from a sign, a segment and a nibble (30_encoding.md R48). -/
theorem codeFields_toNat (b : Bool) {s q : Nat} (hs : s < 8) (hq : q < 16) :
    (BitVec.ofBool b ++ BitVec.ofNat 3 s ++ BitVec.ofNat 4 q).toNat = 128 * b.toNat + (16 * s + q) := by
  rw [BitVec.toNat_append, BitVec.toNat_append, BitVec.toNat_ofNat, BitVec.toNat_ofNat, BitVec.toNat_ofBool,
    Nat.mod_eq_of_lt hs, Nat.mod_eq_of_lt hq, shiftLeft_or_nibble_eq _ hq,
    ← Nat.shiftLeft_add_eq_or_of_lt (i := 3) hs, Nat.shiftLeft_eq]
  omega

/-- The bit form of a code: the sign, and the fields with their even bits inverted (R48, R62). -/
theorem zext16_alawEncode {x : Int} (h0 : -32768 ≤ x) (h1 : x ≤ 32767) :
    zext16 (alawEncode x) =
      0#8 ++ (BitVec.ofBool (decide (0 ≤ x)) ++ (BitVec.ofNat 3 (seg (alawMagnitude x)) ^^^ 0b101#3) ++
        (BitVec.ofNat 4 (alawNibble (alawMagnitude x)) ^^^ 0b0101#4)) := by
  have hm := alawMagnitude_le h0 h1
  have hs : seg (alawMagnitude x) < 8 := Nat.lt_succ_of_le (seg_le_seven hm)
  have hfields := codeFields_toNat false hs (alawNibble_lt (alawMagnitude x))
  have hmask : (BitVec.ofBool (decide (0 ≤ x)) ++ 0b101#3 ++ 0b0101#4).toNat = alawMask x := by
    rw [alawMask]
    by_cases h : 0 ≤ x <;> simp [h]
  have hxor : BitVec.ofBool (decide (0 ≤ x)) ++ (BitVec.ofNat 3 (seg (alawMagnitude x)) ^^^ 0b101#3) ++
        (BitVec.ofNat 4 (alawNibble (alawMagnitude x)) ^^^ 0b0101#4) =
      (BitVec.ofBool false ++ BitVec.ofNat 3 (seg (alawMagnitude x)) ++
          BitVec.ofNat 4 (alawNibble (alawMagnitude x))) ^^^
        (BitVec.ofBool (decide (0 ≤ x)) ++ 0b101#3 ++ 0b0101#4) := by
    rw [BitVec.xor_append, BitVec.xor_append]
    simp
  apply BitVec.eq_of_toNat_eq
  rw [hxor, BitVec.toNat_append, BitVec.toNat_xor, hfields, hmask,
    zext16_toNat ((alawEncode_lt x).trans (by decide)), alawEncode, alawBody_eq hm]
  simp

/-- Settles O29: the code in its bit form, with the magnitude read off the sample's pattern. -/
theorem alawEncWritesCode : Obligations.AlawEncWritesCode := by
  intro x s h0 h1
  have hm : (if (BitVec.ofInt 16 x).getLsbD 15 then ~~~(BitVec.ofInt 16 x) else BitVec.ofInt 16 x).toNat
      % 2 ^ 15 = alawMagnitude x := alawMagnitude_of_pattern h0 h1
  have hle := alawMagnitude_le h0 h1
  have hcode := zext16_alawEncode h0 h1
  rw [seg_eq_segClosed (by omega)] at hcode
  simp only [hm]
  rw [exec_eq, resultValue, hcode]
  rfl

/-- Settles O30: the decoder in its closed form. -/
theorem alawDecWritesSample : Obligations.AlawDecWritesSample := by
  intro hi c s _ hc
  rw [exec_eq, resultValue, alawDecode_eq hc]
  rfl

/-! ### The encoder -/

/-- Settles O31: below the sentinel the encoder is its step 4, and a negated sample is not negative. -/
theorem alawUnreachableBranches : Obligations.AlawUnreachableBranches := by
  intro x h0 h1
  have hm := alawMagnitude_le h0 h1
  have hreduced : alawEncodeReduced x = alawEncode x := by
    simp only [alawEncodeReduced, ← alawMagnitude_eq, alawQuantization_eq_alawNibble,
      shiftLeft_or_nibble_eq _ (alawNibble_lt _), ← alawBody_eq hm]
    rfl
  exact ⟨by omega, by decide, seg_le_seven hm, by decide, by decide, by decide, hreduced⟩

/-- Settles O32: both samples have one 7-bit value, and the masks of the signs differ in bit 7. -/
theorem alawSymmetry : Obligations.AlawSymmetry := by
  intro x h0 _
  obtain ⟨m, rfl⟩ := Int.eq_ofNat_of_zero_le h0
  rw [show -(m : Int) - 1 = Int.negSucc m by omega, alawEncode_natCast, alawEncode_negSucc,
    Nat.xor_comm (alawBody m) 0xD5, Nat.xor_assoc, Nat.xor_xor_cancel_left]
  rfl

/-- Settles O33: the 7-bit value is monotone in the magnitude, and the mask of the sign taken off a code
leaves the 7-bit value. -/
theorem alawMonotone : Obligations.AlawMonotone := by
  refine ⟨fun m n hmn hn => alawBody_mono hmn hn, fun x y h0 hxy hy => ?_, fun x y hx hxy h0 => ?_⟩
  · obtain ⟨m, rfl⟩ := Int.eq_ofNat_of_zero_le h0
    obtain ⟨n, rfl⟩ := Int.eq_ofNat_of_zero_le (h0.trans hxy)
    simp only [alawEncode_natCast, Nat.xor_xor_cancel_right]
    exact alawBody_mono (by omega) (by omega)
  · obtain ⟨m, rfl⟩ := Int.eq_negSucc_of_lt_zero (hxy.trans_lt h0)
    obtain ⟨n, rfl⟩ := Int.eq_negSucc_of_lt_zero h0
    simp only [alawEncode_negSucc, Nat.xor_xor_cancel_right]
    exact alawBody_mono (by omega) (by omega)

/-! ### Decoding and encoding again -/

/-- Settles O35: a decoded magnitude, or the one below it for a negative sample, has the 7-bit value of the
code, and the sample has the sign of the code. -/
theorem alawReencodeIsIdentity : Obligations.AlawReencodeIsIdentity := by
  intro c hc
  have hs := alawCodeSegment_lt c
  have hq := alawCodeNibble_lt c
  have hge := eight_le_alawClosedMagnitude (alawCodeSegment c) (alawCodeNibble c)
  have hcode := alawCodeFields_xor_mask hc
  rw [alawDecode_eq hc]
  split at hcode
  · rw [if_pos ‹_›, alawEncode_natCast, alawBody_of_near_midpoint hs hq (by omega) (by omega), hcode]
  · obtain ⟨m, hm⟩ := Nat.exists_eq_add_of_le' ((by decide : 1 ≤ 8).trans hge)
    rw [if_neg ‹_›, hm, Nat.cast_succ, ← Int.negSucc_eq, alawEncode_negSucc,
      alawBody_of_near_midpoint hs hq (by omega) (by omega), hcode]

/-- Settles O34: the closed form of the decoder, distinct since every code re-encodes to itself, and the
middle of the interval that encodes to the code. -/
theorem alawDecodedValuesAreMidpoints : Obligations.AlawDecodedValuesAreMidpoints := by
  refine ⟨fun c hc => ⟨alawDecode_eq hc, ?_, ?_⟩, fun c hc d hd h => ?_,
    ⟨⟨0xD5, by decide⟩, ⟨0xAA, by decide⟩⟩, fun s hs q hq => ?_⟩
  · exact_mod_cast eight_le_alawClosedMagnitude (alawCodeSegment c) (alawCodeNibble c)
  · exact_mod_cast alawClosedMagnitude_le (alawCodeSegment_lt c) (alawCodeNibble_lt c)
  · rw [← alawReencodeIsIdentity c hc, h, alawReencodeIsIdentity d hd]
  · have hlo : (if s = 0 then 16 * q else (16 + q) * 2 ^ (s + 3)) = alawLow s q := by
      rw [alawLow, alawLead, alawStep]
      split <;> omega
    have hhi : (if s = 0 then 16 * q + 15 else (17 + q) * 2 ^ (s + 3) - 1) =
        alawLow s q + alawStep s - 1 := by
      rw [alawLow, alawLead, alawStep]
      split
      · omega
      · rw [← Nat.succ_mul]
        congr 2
        omega
    have hmid := alawClosedMagnitude_eq_midpoint s q
    have hstep := alawStep_eq_two_mul_alawErrorBound s
    have hpos := alawStep_pos s
    simp only [hlo, hhi]
    exact ⟨fun m hm => alawBody_eq_iff hm hs hq, by omega, by omega⟩

/-! ### Encoding and decoding again -/

/-- The error of a sample is at most half the length of its magnitude's interval (R71). -/
theorem abs_alawDecode_alawEncode_sub_le {x : Int} (h0 : -32768 ≤ x) (h1 : x ≤ 32767) :
    |alawDecode (alawEncode x) - x| ≤ alawErrorBound (seg (alawMagnitude x)) := by
  have hinterval := mem_alawInterval (alawMagnitude_le h0 h1)
  have hstep := alawStep_eq_two_mul_alawErrorBound (seg (alawMagnitude x))
  have hmid := alawClosedMagnitude_eq_midpoint (seg (alawMagnitude x)) (alawNibble (alawMagnitude x))
  have hpos := alawStep_pos (seg (alawMagnitude x))
  have hmag := alawMagnitude_eq x
  rw [alawDecode_alawEncode h0 h1, abs_le]
  split at hmag
  · rw [if_pos ‹_›]
    omega
  · rw [if_neg ‹_›]
    omega

/-- The smallest magnitude of a segment has the segment's largest error (R71). -/
theorem alawErrorBound_reached {k : Nat} (hk : k < 8) :
    ∃ x : Int, -32768 ≤ x ∧ x ≤ 32767 ∧ seg (alawMagnitude x) = k ∧
      |alawDecode (alawEncode x) - x| = alawErrorBound k := by
  have hE := eight_le_alawErrorBound k
  have hstep := alawStep_eq_two_mul_alawErrorBound k
  have hmid := alawClosedMagnitude_eq_midpoint k 0
  have hle := alawClosedMagnitude_le hk (show 0 < 16 by decide)
  have hm : alawLow k 0 ≤ 32767 := by omega
  have hbody : alawBody (alawLow k 0) = 16 * k + 0 := (alawBody_eq_iff hm hk (by decide)).2 (by omega)
  have hnib := alawNibble_lt (alawLow k 0)
  rw [alawBody_eq hm] at hbody
  obtain ⟨hseg, hnib⟩ : seg (alawLow k 0) = k ∧ alawNibble (alawLow k 0) = 0 := by omega
  refine ⟨alawLow k 0, by omega, by omega, by rwa [alawMagnitude_natCast], ?_⟩
  rw [alawDecode_alawEncode (by omega) (by omega), if_pos (by omega), alawMagnitude_natCast, hseg, hnib, hmid,
    add_sub_cancel_left, abs_of_nonneg (by omega)]

/-- Settles O36: the bound, reached at the smallest magnitude of every segment, and the lowest sample. -/
theorem alawRoundTripBound : Obligations.AlawRoundTripBound :=
  ⟨fun _ h0 h1 => abs_alawDecode_alawEncode_sub_le h0 h1, fun _ hk => alawErrorBound_reached hk, by decide⟩

end Sys2Proof.Machine
end

section
/-! PROOFS. The statements of 43_mulaw.md: the encoder and both decoders of μ-law in their closed forms, and
what they do to each other. Both turn on the intervals of biased magnitudes that share a 7-bit value. -/

namespace Sys2Proof.Machine

/-! ### The intervals of the encoder -/

/-- The smallest biased magnitude of the interval of segment `s` and nibble `q`, before the cut at 132
(43_mulaw.md R82). -/
def ulawLow (s q : Nat) : Nat := (16 + q) * 2 ^ (s + 3)

theorem ulawNibble_lt (b : Nat) : ulawNibble b < 16 := Nat.mod_lt _ (by decide)

/-- From 128 on, a segment is the range of 16 intervals of its length, segment 0 not excepted. -/
theorem seg_eq_iff_div_two_pow {b s : Nat} (h0 : 128 ≤ b) (h1 : b ≤ 32767) (hs : s < 8) :
    seg b = s ↔ 16 ≤ b / 2 ^ (s + 3) ∧ b / 2 ^ (s + 3) < 32 := by
  cases s with
  | zero => rw [seg_eq_zero_iff (by omega)]; omega
  | succ k =>
    have hpos := Nat.two_pow_pos (k + 1 + 3)
    rw [seg_eq_succ_iff (by omega) (by omega), Nat.le_div_iff_mul_le hpos, Nat.div_lt_iff_lt_mul hpos]
    simp only [pow_succ]
    omega

/-- The leading 1 of a biased magnitude stands above its nibble (R74). -/
theorem div_two_pow_seg {b : Nat} (h0 : 128 ≤ b) (h1 : b ≤ 32767) :
    b / 2 ^ (seg b + 3) = 16 + ulawNibble b := by
  have h := (seg_eq_iff_div_two_pow h0 h1 (Nat.lt_succ_of_le (seg_le_seven h1))).1 rfl
  rw [ulawNibble]
  omega

/-- Below the sentinel the 7-bit value is step 5 of R74 (R76). -/
theorem ulawBody_of_seg_lt {b : Nat} (hs : seg b < 8) :
    ulawBody b = (seg b <<< 4) ||| ((b >>> (seg b + 3)) &&& 0xF) :=
  if_neg (by omega)

/-- The 7-bit value of the encoder is its segment and its nibble (R74). -/
theorem ulawBody_eq {b : Nat} (h1 : b ≤ 32767) : ulawBody b = 16 * seg b + ulawNibble b := by
  rw [ulawBody_of_seg_lt (Nat.lt_succ_of_le (seg_le_seven h1)), shiftRight_and_nibble]
  exact shiftLeft_or_nibble_eq _ (ulawNibble_lt b)

/-- The biased magnitudes that encode to a 7-bit value are an interval (R82). -/
theorem ulawBody_eq_iff {b s q : Nat} (h0 : 128 ≤ b) (h1 : b ≤ 32767) (hs : s < 8) (hq : q < 16) :
    ulawBody b = 16 * s + q ↔ ulawLow s q ≤ b ∧ b ≤ ulawLow s q + 2 ^ (s + 3) - 1 := by
  rw [ulawLow, ← Nat.div_eq_iff (Nat.two_pow_pos _), ulawBody_eq h1]
  have hnib := ulawNibble_lt b
  have hdiv := div_two_pow_seg h0 h1
  constructor
  · intro h
    obtain ⟨rfl, rfl⟩ : seg b = s ∧ ulawNibble b = q := by omega
    exact hdiv
  · intro h
    have hseg : seg b = s := (seg_eq_iff_div_two_pow h0 h1 hs).2 (by omega)
    rw [hseg] at hdiv ⊢
    omega

/-- A biased magnitude lies in the interval of its segment and nibble. -/
theorem mem_ulawInterval {b : Nat} (h0 : 128 ≤ b) (h1 : b ≤ 32767) :
    ulawLow (seg b) (ulawNibble b) ≤ b ∧ b ≤ ulawLow (seg b) (ulawNibble b) + 2 ^ (seg b + 3) - 1 :=
  (ulawBody_eq_iff h0 h1 (Nat.lt_succ_of_le (seg_le_seven h1)) (ulawNibble_lt b)).1 (ulawBody_eq h1)

/-- A larger biased magnitude has a larger segment, or in the same segment no smaller quotient (R78). -/
theorem ulawBody_mono {a b : Nat} (ha : 128 ≤ a) (hab : a ≤ b) (hb : b ≤ 32767) :
    ulawBody a ≤ ulawBody b := by
  have hnib := ulawNibble_lt a
  rw [ulawBody_eq (hab.trans hb), ulawBody_eq hb]
  obtain hlt | heq := (seg_mono hab).lt_or_eq
  · omega
  · have hdiv : a / 2 ^ (seg b + 3) ≤ b / 2 ^ (seg b + 3) := Nat.div_le_div_right hab
    rw [div_two_pow_seg (ha.trans hab) hb, ← heq, div_two_pow_seg ha (hab.trans hb)] at hdiv
    omega

/-- Settles O41: bias and clamp are monotone, and so is the 7-bit value after them. -/
theorem ulawMonotone : Obligations.UlawMonotone := by
  intro m n hmn _
  rw [ulawBiased_eq_min, ulawBiased_eq_min]
  exact ulawBody_mono (by omega) (by omega) (by omega)

/-! ### The clamp and the branch out of range -/

/-- The sentinel is answered from 32768 on (R76). -/
theorem eight_le_seg_iff {b : Nat} (hb : b ≤ 65535) : 8 ≤ seg b ↔ 32768 ≤ b := by
  have h := seg_le_iff hb (k := 7) (by decide)
  omega

/-- Every biased magnitude from the clamp on has the 7-bit value that the branch out of range gives (R76). -/
theorem ulawBody_min_clamp {b : Nat} (hb : b ≤ 65535) : ulawBody (min b 32767) = ulawBody b := by
  obtain hle | hgt := le_or_gt b 32767
  · rw [Nat.min_eq_left hle]
  · have hbranch : ulawBody b = 0x7F := if_pos ((eight_le_seg_iff hb).2 hgt)
    rw [Nat.min_eq_right hgt.le, hbranch]
    decide

/-- Settles O39: without the clamp the branch gives the same 7-bit value, and after the clamp the branch is
never taken. -/
theorem ulawClampAndBranchAreRedundant : Obligations.UlawClampAndBranchAreRedundant := by
  intro x h0 h1
  have hseg : seg (ulawBiased (ulawMagnitude x)) ≤ 7 :=
    seg_le_seven (by rw [ulawBiased_eq_min]; exact Nat.min_le_right _ _)
  have hb : ulawMagnitude x + 132 ≤ 32900 := by rw [ulawMagnitude_eq_natAbs]; omega
  have hnoClamp : ulawEncodeNoClamp x = ulawEncode x := by
    rw [ulawEncodeNoClamp, ulawEncode, ulawBiased_eq_min, ulawBody_min_clamp (hb.trans (by decide))]
  have hnoBranch : ulawEncodeNoBranch x = ulawEncode x := by
    rw [ulawEncode, ulawBody_of_seg_lt (Nat.lt_succ_of_le hseg)]
    rfl
  exact ⟨hseg, hb, eight_le_seg_iff (hb.trans (by decide)), by decide, by decide, by decide, hnoClamp,
    hnoBranch⟩

/-! ### Samples and codes -/

/-- The code of a sample: its sign's mask on the 7-bit value of its biased and clamped magnitude (R74). -/
theorem ulawEncode_eq_xor (x : Int) :
    ulawEncode x = ulawBody (ulawBiased x.natAbs) ^^^ (if x < 0 then 0x7F else 0xFF) := by
  rw [ulawEncode, ulawMagnitude_eq_natAbs, ulawMask]

/-- Settles O40: both samples have one 7-bit value, and the masks of the signs differ in bit 7. -/
theorem ulawSymmetry : Obligations.UlawSymmetry := by
  refine ⟨fun x h0 _ => ?_, by decide, by decide⟩
  rw [ulawEncode_eq_xor, ulawEncode_eq_xor, if_neg (by omega), if_pos (by omega), Int.natAbs_neg,
    Nat.xor_comm _ 0xFF, Nat.xor_assoc, Nat.xor_xor_cancel_left]
  rfl

/-- A mask of ones complements a number that it covers. -/
theorem xor_two_pow_sub_one {v n : Nat} (h : v < 2 ^ n) : v ^^^ (2 ^ n - 1) = 2 ^ n - 1 - v := by
  refine Nat.eq_of_testBit_eq fun i => ?_
  rw [Nat.testBit_xor, Nat.testBit_two_pow_sub_one, Nat.sub_sub, Nat.add_comm, Nat.testBit_two_pow_sub_succ h]
  by_cases hi : i < n
  · simp [hi]
  · have hv : v < 2 ^ i := h.trans_le (Nat.pow_le_pow_right (by decide) (by omega))
    simp [hi, Nat.testBit_lt_two_pow hv]

/-- Both masks complement the 7-bit value, the one of a sample that is not negative bit 7 too (R74). -/
theorem ulawEncode_eq (x : Int) :
    ulawEncode x = (if x < 0 then 127 else 255) - ulawBody (ulawBiased x.natAbs) := by
  have hlt := ulawBody_lt (ulawBiased x.natAbs)
  rw [ulawEncode_eq_xor]
  split
  · exact xor_two_pow_sub_one (n := 7) hlt
  · exact xor_two_pow_sub_one (n := 8) (hlt.trans (by decide))

/-- The field `SEG` of a complemented code (R79, R80). -/
def ulawCodeSegment (c : Nat) : Nat := (255 - c) / 16 % 8

/-- The field `Q` of a complemented code (R79, R80). -/
def ulawCodeNibble (c : Nat) : Nat := (255 - c) % 16

theorem ulawCodeSegment_lt (c : Nat) : ulawCodeSegment c < 8 := Nat.mod_lt _ (by decide)

theorem ulawCodeNibble_lt (c : Nat) : ulawCodeNibble c < 16 := Nat.mod_lt _ (by decide)

/-- A code is its sign over its complemented fields (30_encoding.md R49). -/
theorem ulawCode_add_fields {c : Nat} (hc : c ≤ 255) :
    c + (16 * ulawCodeSegment c + ulawCodeNibble c) = if 128 ≤ c then 255 else 127 := by
  rw [ulawCodeSegment, ulawCodeNibble]
  split <;> omega

/-- The codes of the samples that are not negative are those from 0x80 (30_encoding.md R50). -/
theorem le_ulawEncode_iff (x : Int) : 128 ≤ ulawEncode x ↔ 0 ≤ x := by
  have hlt := ulawBody_lt (ulawBiased x.natAbs)
  rw [ulawEncode_eq]
  split <;> omega

/-- The fields of a code hold the 7-bit value of the sample (R49, R74). -/
theorem ulawCodeFields_ulawEncode (x : Int) :
    16 * ulawCodeSegment (ulawEncode x) + ulawCodeNibble (ulawEncode x) = ulawBody (ulawBiased x.natAbs) := by
  have hlt := ulawBody_lt (ulawBiased x.natAbs)
  rw [ulawEncode_eq, ulawCodeSegment, ulawCodeNibble]
  split <;> omega

/-- A sample with the sign of a code has that code exactly if its magnitude has the code's 7-bit value; the
sign of 0 is that of the codes from 0x80 (R49, R74). -/
theorem ulawEncode_signed_eq_iff {c t : Nat} (hc : c ≤ 255) (ht : 128 ≤ c ∨ 0 < t) :
    ulawEncode (if 128 ≤ c then (t : Int) else -(t : Int)) = c ↔
      ulawBody (ulawBiased t) = 16 * ulawCodeSegment c + ulawCodeNibble c := by
  have hlt := ulawBody_lt (ulawBiased t)
  have hcode := ulawCode_add_fields hc
  split at hcode
  · rw [if_pos ‹_›, ulawEncode_eq, if_neg (by omega), Int.natAbs_natCast]
    omega
  · rw [if_neg ‹_›, ulawEncode_eq, if_pos (by omega), Int.natAbs_neg, Int.natAbs_natCast]
    omega

/-! ### The decoders in closed form -/

/-- The sign bit of a complemented code. -/
theorem not8_and_sign_ne_zero_iff (c : Nat) : not8 c &&& 0x80 ≠ 0 ↔ ¬ 128 ≤ c := by
  have hle : not8 c ≤ 255 := Nat.sub_le 255 c
  rw [show 0x80 = 2 ^ 7 from rfl, Nat.and_two_pow, testBit_seven_eq hle, not8]
  by_cases h : 128 ≤ c
  · simp [h]; omega
  · simp [h]; omega

/-- The segment field of a complemented code. -/
theorem not8_segmentField (c : Nat) : (not8 c &&& 0x70) >>> 4 = ulawCodeSegment c := by
  rw [Nat.shiftRight_and_distrib, Nat.shiftRight_eq_div_pow]
  exact Nat.and_two_pow_sub_one_eq_mod _ 3

/-- The nibble field of a complemented code. -/
theorem not8_nibbleField (c : Nat) : not8 c &&& 0xF = ulawCodeNibble c :=
  Nat.and_two_pow_sub_one_eq_mod _ 4

/-- The nibble's place in the decoded magnitude (R79, R80). -/
theorem shiftLeft_three_eq (q : Nat) : q <<< 3 = 8 * q := by
  rw [Nat.shiftLeft_eq, Nat.mul_comm]

/-- The upper of the two middle integers of an interval (R82). -/
theorem midpoint_eq_ulawLow_add (s q : Nat) : (8 * q + 132) * 2 ^ s = ulawLow s q + 2 ^ (s + 2) := by
  rw [ulawLow]
  ring

/-- The bias that is taken off a midpoint is never more than the midpoint (R82). -/
theorem g711ClosedMagnitude_add_bias (s q : Nat) :
    g711ClosedMagnitude s q + 132 = (8 * q + 132) * 2 ^ s := by
  have hmid : (2 * q + 33) * 2 ^ (s + 2) = (8 * q + 132) * 2 ^ s := by ring
  have hge : 8 * q + 132 ≤ (8 * q + 132) * 2 ^ s := Nat.le_mul_of_pos_right _ (Nat.two_pow_pos s)
  rw [← hmid] at hge ⊢
  exact Nat.sub_add_cancel (le_of_add_le_right hge)

theorem g711ClosedMagnitude_le {s q : Nat} (hs : s < 8) (hq : q < 16) : g711ClosedMagnitude s q ≤ 32124 := by
  have hle : (8 * q + 132) * 2 ^ s ≤ (8 * 15 + 132) * 2 ^ 7 :=
    Nat.mul_le_mul (by omega) (Nat.pow_le_pow_right (by decide) (by omega))
  have hbias := g711ClosedMagnitude_add_bias s q
  omega

/-- Only the fields 0 and 0 have the magnitude 0 (R82). -/
theorem g711ClosedMagnitude_pos {s q : Nat} (h : 0 < s ∨ 0 < q) : 0 < g711ClosedMagnitude s q := by
  have hbias := g711ClosedMagnitude_add_bias s q
  suffices 132 * 1 < (8 * q + 132) * 2 ^ s by omega
  obtain hs | hq := h
  · exact Nat.mul_lt_mul_of_le_of_lt (by omega) (Nat.one_lt_two_pow hs.ne') (by omega)
  · exact Nat.mul_lt_mul_of_lt_of_le (by omega) Nat.one_le_two_pow (Nat.two_pow_pos s)

/-- The `G711` decoder as a sign and the closed magnitude of the fields (R79, R82). -/
theorem ulawDecodeG711_eq (c : Nat) :
    ulawDecodeG711 c =
      if 128 ≤ c then (g711ClosedMagnitude (ulawCodeSegment c) (ulawCodeNibble c) : Int)
      else -(g711ClosedMagnitude (ulawCodeSegment c) (ulawCodeNibble c) : Int) := by
  have hbias := g711ClosedMagnitude_add_bias (ulawCodeSegment c) (ulawCodeNibble c)
  simp only [ulawDecodeG711, not8_and_sign_ne_zero_iff, not8_segmentField, not8_nibbleField,
    shiftLeft_three_eq, ite_not]
  rw [Nat.shiftLeft_eq, ← hbias]
  split <;> omega

/-- The `DOC_LITERAL` decoder as a sign and the closed magnitude of the fields (R80, R82). -/
theorem ulawDecodeDoc_eq (c : Nat) :
    ulawDecodeDoc c =
      if 128 ≤ c then (docClosedMagnitude (ulawCodeSegment c) (ulawCodeNibble c) : Int)
      else -(docClosedMagnitude (ulawCodeSegment c) (ulawCodeNibble c) : Int) := by
  simp only [ulawDecodeDoc, docClosedMagnitude, not8_and_sign_ne_zero_iff, not8_segmentField,
    not8_nibbleField, shiftLeft_three_eq, ite_not]
  simp only [Nat.shiftLeft_eq]

/-- Decoding a code that the encoder gave, under `G711`: the fields of the sample's biased magnitude, with the
sign of the sample (R84). -/
theorem ulawDecodeG711_ulawEncode {x : Int} {s q : Nat} (hq : q < 16)
    (hbody : ulawBody (ulawBiased x.natAbs) = 16 * s + q) :
    ulawDecodeG711 (ulawEncode x) =
      if 0 ≤ x then (g711ClosedMagnitude s q : Int) else -(g711ClosedMagnitude s q : Int) := by
  have hfields := ulawCodeFields_ulawEncode x
  have hnib := ulawCodeNibble_lt (ulawEncode x)
  obtain ⟨hs, hq⟩ : ulawCodeSegment (ulawEncode x) = s ∧ ulawCodeNibble (ulawEncode x) = q := by omega
  rw [ulawDecodeG711_eq, hs, hq]
  simp only [le_ulawEncode_iff]

/-! ### The commands -/

/-- The bit form of a code: the sign, and the complemented fields (R49, R74). -/
theorem zext16_ulawEncode (x : Int) {b : Nat} (hb : b ≤ 32767) (hx : ulawBiased x.natAbs = b) :
    zext16 (ulawEncode x) =
      0#8 ++ (BitVec.ofBool (decide (0 ≤ x)) ++ (0b111#3 - BitVec.ofNat 3 (seg b)) ++
        (0b1111#4 - BitVec.ofNat 4 (ulawNibble b))) := by
  have hs := seg_le_seven hb
  have hq := ulawNibble_lt b
  have hfields := codeFields_toNat (decide (0 ≤ x)) (show 7 - seg b < 8 by omega)
    (show 15 - ulawNibble b < 16 by omega)
  rw [BitVec.ofNat_sub_ofNat_of_le _ _ (by omega) hs, BitVec.ofNat_sub_ofNat_of_le _ _ hq (by omega)]
  apply BitVec.eq_of_toNat_eq
  rw [append_toNat, hfields, zext16_toNat ((ulawEncode_lt x).trans (by decide)), ulawEncode_eq, hx,
    ulawBody_eq hb]
  by_cases h : 0 ≤ x
  · simp [h, not_lt.2 h]; omega
  · simp [h, not_le.1 h]; omega

/-- Settles O37: the code in its bit form. -/
theorem ulawEncWritesCode : Obligations.UlawEncWritesCode := by
  intro x s _ _
  have hb : min (x.natAbs + 132) 32767 ≤ 32767 := Nat.min_le_right _ _
  have hcode := zext16_ulawEncode x hb (ulawBiased_eq_min _)
  rw [seg_eq_segClosed (hb.trans (by decide))] at hcode
  rw [exec_eq, resultValue, hcode]
  rfl

/-- Settles O38: the decoder of either rule in its closed form. -/
theorem ulawDecWritesSample : Obligations.UlawDecWritesSample := by
  intro hi c s _ _
  rw [exec_eq, resultValue]
  cases hrule : s.config.mulawDecodeRule with
  | g711 => rw [ulawDecode, ulawDecodeG711_eq]; rfl
  | docLiteral => rw [ulawDecode, ulawDecodeDoc_eq]; rfl

/-! ### Decoding and encoding again -/

/-- A decoded magnitude of `G711` with the bias put back is the middle of its interval (R83). -/
theorem ulawBody_g711ClosedMagnitude {s q : Nat} (hs : s < 8) (hq : q < 16) :
    ulawBody (ulawBiased (g711ClosedMagnitude s q)) = 16 * s + q := by
  have hbias := g711ClosedMagnitude_add_bias s q
  have hle := g711ClosedMagnitude_le hs hq
  have hmid := midpoint_eq_ulawLow_add s q
  have hhalf : 2 ^ (s + 3) = 2 * 2 ^ (s + 2) := pow_succ' 2 (s + 2)
  have hpos := Nat.two_pow_pos (s + 2)
  rw [ulawBiased_eq_min, Nat.min_eq_left (by omega), ulawBody_eq_iff (by omega) (by omega) hs hq]
  omega

/-- Settles O44: a decoded magnitude has the 7-bit value of the code, and only for 0x7F the sample does not
have the sign of the code. -/
theorem g711ReencodeIsIdentity : Obligations.G711ReencodeIsIdentity := by
  refine ⟨fun c hc hne => ?_, by decide, by decide⟩
  have hcode := ulawCode_add_fields hc
  have hsign : 128 ≤ c ∨ 0 < g711ClosedMagnitude (ulawCodeSegment c) (ulawCodeNibble c) := by
    obtain h | h := le_or_gt 128 c
    · exact .inl h
    · exact .inr (g711ClosedMagnitude_pos (by rw [if_neg (by omega)] at hcode; omega))
  rw [ulawDecodeG711_eq, ulawEncode_signed_eq_iff hc hsign]
  exact ulawBody_g711ClosedMagnitude (ulawCodeSegment_lt c) (ulawCodeNibble_lt c)

theorem docClosedMagnitude_zero (q : Nat) : docClosedMagnitude 0 q = 8 * q + 132 := rfl

theorem docClosedMagnitude_succ (k q : Nat) : docClosedMagnitude (k + 1) q = (8 * q + 388) * 2 ^ k := rfl

/-- The decoded magnitudes of a segment from 1 on begin where those of the segments below have ended. -/
theorem le_docClosedMagnitude_succ (k q : Nat) : 388 * 2 ^ k ≤ docClosedMagnitude (k + 1) q :=
  Nat.mul_le_mul_right _ (by omega)

/-- The decoded magnitudes of a segment end before those of the next begin. -/
theorem docClosedMagnitude_lt {s q : Nat} (hq : q < 16) : docClosedMagnitude s q < 388 * 2 ^ s := by
  cases s with
  | zero => rw [docClosedMagnitude_zero]; omega
  | succ k =>
    rw [docClosedMagnitude_succ, pow_succ', ← Nat.mul_assoc]
    exact Nat.mul_lt_mul_of_pos_right (by omega) (Nat.two_pow_pos k)

/-- The range of `DOC_LITERAL` in segment 0 (R82). -/
theorem docClosedMagnitude_range_of_eq_zero {s q : Nat} (h : s = 0) (hq : q < 16) :
    132 ≤ docClosedMagnitude s q ∧ docClosedMagnitude s q ≤ 252 := by
  rw [h, docClosedMagnitude_zero]
  omega

/-- The range of `DOC_LITERAL` from segment 1 on (R82). -/
theorem docClosedMagnitude_range_of_pos {s q : Nat} (h : 1 ≤ s) (hs : s < 8) (hq : q < 16) :
    388 ≤ docClosedMagnitude s q ∧ docClosedMagnitude s q ≤ 32512 := by
  obtain ⟨k, rfl⟩ := Nat.exists_eq_add_of_le' h
  constructor
  · calc 388 ≤ 388 * 2 ^ k := Nat.le_mul_of_pos_right _ (Nat.two_pow_pos k)
      _ ≤ docClosedMagnitude (k + 1) q := le_docClosedMagnitude_succ k q
  · calc (8 * q + 388) * 2 ^ k
      _ ≤ (8 * 15 + 388) * 2 ^ 6 :=
        Nat.mul_le_mul (by omega) (Nat.pow_le_pow_right (by decide) (by omega))
      _ = 32512 := rfl

/-- No code decodes to 0 under `DOC_LITERAL`, nor to a magnitude that the encoder's bias takes past its clamp
(R82). -/
theorem docClosedMagnitude_range {s q : Nat} (hs : s < 8) (hq : q < 16) :
    132 ≤ docClosedMagnitude s q ∧ docClosedMagnitude s q ≤ 32512 := by
  obtain h | h := Nat.eq_zero_or_pos s
  · have := docClosedMagnitude_range_of_eq_zero h hq
    omega
  · have := docClosedMagnitude_range_of_pos h hs hq
    omega

theorem docClosedMagnitude_code_pos (c : Nat) :
    0 < docClosedMagnitude (ulawCodeSegment c) (ulawCodeNibble c) :=
  Nat.lt_of_lt_of_le (by decide) (docClosedMagnitude_range (ulawCodeSegment_lt c) (ulawCodeNibble_lt c)).1

/-- Of two decoded magnitudes of `DOC_LITERAL` the one of the smaller segment is smaller (R82). -/
theorem docClosedMagnitude_lt_of_lt {s t p q : Nat} (hst : s < t) (hp : p < 16) :
    docClosedMagnitude s p < docClosedMagnitude t q := by
  obtain ⟨k, rfl⟩ := Nat.exists_eq_add_of_lt hst
  calc docClosedMagnitude s p
      _ < 388 * 2 ^ s := docClosedMagnitude_lt hp
      _ ≤ 388 * 2 ^ (s + k) := Nat.mul_le_mul_left _ (Nat.pow_le_pow_right (by decide) (by omega))
      _ ≤ docClosedMagnitude (s + k + 1) q := le_docClosedMagnitude_succ _ _

/-- The fields of a code are known from its decoded magnitude under `DOC_LITERAL` (R82). -/
theorem docClosedMagnitude_inj {s t p q : Nat} (hp : p < 16) (hq : q < 16)
    (h : docClosedMagnitude s p = docClosedMagnitude t q) : s = t ∧ p = q := by
  obtain hst | rfl | hst := Nat.lt_trichotomy s t
  · exact absurd h (docClosedMagnitude_lt_of_lt hst hp).ne
  · refine ⟨rfl, ?_⟩
    cases s with
    | zero => rw [docClosedMagnitude_zero, docClosedMagnitude_zero] at h; omega
    | succ k =>
      have hfactor : 8 * p + 388 = 8 * q + 388 := Nat.eq_of_mul_eq_mul_right (Nat.two_pow_pos k) h
      omega
  · exact absurd h.symm (docClosedMagnitude_lt_of_lt hst hq).ne

/-- The decoded magnitude of `DOC_LITERAL` still carries a bias, so that the encoder's bias moves it above its
interval, except in the last interval of segment 7 (R80). -/
theorem ulawBody_docClosedMagnitude_iff {s q : Nat} (hs : s < 8) (hq : q < 16) :
    ulawBody (ulawBiased (docClosedMagnitude s q)) = 16 * s + q ↔ s = 7 ∧ q = 15 := by
  obtain ⟨_, hle⟩ := docClosedMagnitude_range hs hq
  rw [ulawBiased_eq_min, Nat.min_eq_left (by omega), ulawBody_eq_iff (by omega) (by omega) hs hq, ulawLow,
    docClosedMagnitude]
  -- In each segment both ends of the interval are linear in the nibble.
  interval_cases s <;> simp <;> omega

/-- Settles O43: the codes with the complemented fields 7 and 15, of either sign. -/
theorem docLiteralReencodesTwoCodesOnly : Obligations.DocLiteralReencodesTwoCodesOnly := by
  refine ⟨by decide, by decide, fun c hc => ?_⟩
  have hs := ulawCodeSegment_lt c
  have hq := ulawCodeNibble_lt c
  have hcode := ulawCode_add_fields hc
  rw [ulawDecodeDoc_eq, ulawEncode_signed_eq_iff hc (.inr (docClosedMagnitude_code_pos c)),
    ulawBody_docClosedMagnitude_iff hs hq]
  split at hcode <;> omega

/-- Two codes that decode to one sample under `DOC_LITERAL` have one sign and one magnitude (R82). -/
theorem ulawDecodeDoc_inj {c d : Nat} (hc : c ≤ 255) (hd : d ≤ 255)
    (h : ulawDecodeDoc c = ulawDecodeDoc d) : c = d := by
  have hcpos := docClosedMagnitude_code_pos c
  have hdpos := docClosedMagnitude_code_pos d
  have hccode := ulawCode_add_fields hc
  have hdcode := ulawCode_add_fields hd
  rw [ulawDecodeDoc_eq, ulawDecodeDoc_eq] at h
  obtain ⟨hsign, hmag⟩ : (128 ≤ c ↔ 128 ≤ d) ∧
      docClosedMagnitude (ulawCodeSegment c) (ulawCodeNibble c) =
        docClosedMagnitude (ulawCodeSegment d) (ulawCodeNibble d) := by
    split at h <;> split at h <;> omega
  obtain ⟨hseg, hnib⟩ := docClosedMagnitude_inj (ulawCodeNibble_lt c) (ulawCodeNibble_lt d) hmag
  simp only [hseg, hnib, hsign] at hccode
  omega

/-- Settles O42: the closed forms of both decoders, distinct by re-encoding under `G711` and by the order of
the magnitudes under `DOC_LITERAL`, and the intervals of the encoder with their middle. -/
theorem ulawDecodedValuesClosedForms : Obligations.UlawDecodedValuesClosedForms := by
  refine ⟨fun c _ => ?_, ⟨by decide, by decide, fun c hc d hd hc' hd' h => ?_⟩,
    fun c hc d hd => ulawDecodeDoc_inj hc hd, fun c _ => ?_, fun s hs q hq => ?_⟩
  · have hs := ulawCodeSegment_lt c
    have hq := ulawCodeNibble_lt c
    have hbias := g711ClosedMagnitude_add_bias (ulawCodeSegment c) (ulawCodeNibble c)
    refine ⟨eq_sub_of_add_eq (by exact_mod_cast hbias), ulawDecodeG711_eq c, Int.natCast_nonneg _,
      by exact_mod_cast g711ClosedMagnitude_le hs hq, ulawDecodeDoc_eq c, fun h => ?_, fun h => ?_⟩
    · exact_mod_cast docClosedMagnitude_range_of_eq_zero h hq
    · exact_mod_cast docClosedMagnitude_range_of_pos h hs hq
  · obtain ⟨hid, _⟩ := g711ReencodeIsIdentity
    rw [← hid c hc hc', h, hid d hd hd']
  · have hpos := docClosedMagnitude_code_pos c
    rw [ulawDecodeDoc_eq]
    split <;> omega
  · have hlo : (if s = 0 then 128 + 8 * q else (16 + q) * 2 ^ (s + 3)) = ulawLow s q := by
      rw [ulawLow]
      split
      · next h => rw [h]; omega
      · rfl
    have hhi : (if s = 0 then 135 + 8 * q else (17 + q) * 2 ^ (s + 3) - 1) =
        ulawLow s q + 2 ^ (s + 3) - 1 := by
      rw [ulawLow, ← Nat.succ_mul, Nat.succ_eq_add_one, Nat.add_right_comm 16 q 1]
      split
      · next h => rw [h]; omega
      · rfl
    have hmid := midpoint_eq_ulawLow_add s q
    have hhalf : 2 ^ (s + 3) = 2 * 2 ^ (s + 2) := pow_succ' 2 (s + 2)
    have hpos := Nat.two_pow_pos (s + 2)
    simp only [hlo, hhi]
    exact ⟨fun b h0 h1 => ulawBody_eq_iff (by omega) h1 hs hq, by omega, by omega⟩

/-! ### Encoding and decoding again -/

theorem ulawErrorBound_eq_natCast (s : Nat) : ulawErrorBound s = ((2 ^ (s + 2) : Nat) : Int) := by
  rw [ulawErrorBound, Nat.cast_pow, Nat.cast_ofNat]

/-- The error of a sample outside the clamp is the distance of its biased magnitude from the middle of its
interval (R84). -/
theorem abs_ulawDecodeG711_ulawEncode_sub {x : Int} {s q : Nat} (hx : x.natAbs ≤ 32635) (hq : q < 16)
    (hbody : ulawBody (x.natAbs + 132) = 16 * s + q) :
    |ulawDecodeG711 (ulawEncode x) - x| =
      |((ulawLow s q + 2 ^ (s + 2) : Nat) : Int) - ((x.natAbs + 132 : Nat) : Int)| := by
  have hbias := g711ClosedMagnitude_add_bias s q
  rw [midpoint_eq_ulawLow_add] at hbias
  rw [← hbias, ulawDecodeG711_ulawEncode hq (by rw [ulawBiased_eq_min, Nat.min_eq_left (by omega), hbody])]
  split
  · exact congrArg abs (by omega)
  · rw [← abs_neg]
    exact congrArg abs (by omega)

/-- The error of a sample outside the clamp is at most half the length of its interval (R84). -/
theorem abs_ulawDecodeG711_ulawEncode_sub_le {x : Int} (hx : x.natAbs ≤ 32635) :
    |ulawDecodeG711 (ulawEncode x) - x| ≤ ulawErrorBound (seg (x.natAbs + 132)) := by
  have hb : x.natAbs + 132 ≤ 32767 := by omega
  have hinterval := mem_ulawInterval (by omega) hb
  have hhalf : 2 ^ (seg (x.natAbs + 132) + 3) = 2 * 2 ^ (seg (x.natAbs + 132) + 2) := pow_succ' 2 _
  rw [abs_ulawDecodeG711_ulawEncode_sub hx (ulawNibble_lt _) (ulawBody_eq hb), ulawErrorBound_eq_natCast,
    abs_le]
  omega

/-- The smallest magnitude of a segment's second interval has the segment's largest error: the bias cuts the
first interval of segment 0 (R84). -/
theorem ulawErrorBound_reached {k : Nat} (hk : k < 8) :
    ∃ x : Int, -32635 ≤ x ∧ x ≤ 32635 ∧ seg (x.natAbs + 132) = k ∧
      |ulawDecodeG711 (ulawEncode x) - x| = ulawErrorBound k := by
  have hlow : ulawLow k 1 = 136 * 2 ^ k := by rw [ulawLow]; ring
  have hge : 1 ≤ 2 ^ k := Nat.one_le_two_pow
  have hle : 2 ^ k ≤ 2 ^ 7 := Nat.pow_le_pow_right (by decide) (Nat.le_of_lt_succ hk)
  obtain ⟨m, hm⟩ : ∃ m, m + 132 = ulawLow k 1 := ⟨ulawLow k 1 - 132, by omega⟩
  have hpos := Nat.two_pow_pos (k + 3)
  have hbody : ulawBody (m + 132) = 16 * k + 1 :=
    (ulawBody_eq_iff (by omega) (by omega) hk (by decide)).2 (by omega)
  have hseg : seg (m + 132) = k := by
    have hnib := ulawNibble_lt (m + 132)
    rw [ulawBody_eq (by omega)] at hbody
    omega
  refine ⟨m, by omega, by omega, by rwa [Int.natAbs_natCast], ?_⟩
  rw [abs_ulawDecodeG711_ulawEncode_sub (s := k) (q := 1) (by omega) (by decide) (by rwa [Int.natAbs_natCast]),
    Int.natAbs_natCast, hm, ulawErrorBound_eq_natCast, Nat.cast_add, add_sub_cancel_left,
    abs_of_nonneg (Int.natCast_nonneg _)]

/-- In the clamp region every sample comes back as the largest decoded magnitude with its sign (R84). -/
theorem ulawDecodeG711_ulawEncode_of_clamp {x : Int} (hx : 32636 ≤ x.natAbs) :
    ulawDecodeG711 (ulawEncode x) = if 0 ≤ x then 32124 else -32124 := by
  have hb : ulawBiased x.natAbs = 32767 := by rw [ulawBiased_eq_min, Nat.min_eq_right (by omega)]
  exact ulawDecodeG711_ulawEncode (s := 7) (q := 15) (by decide) (by rw [hb]; decide)

/-- Settles O45: the bound, reached in every segment, and the clamp region with both its ends. -/
theorem g711RoundTripBound : Obligations.G711RoundTripBound := by
  refine ⟨fun x h0 h1 => abs_ulawDecodeG711_ulawEncode_sub_le (by omega),
    fun k hk => ulawErrorBound_reached hk, fun x h0 h1 hx => ?_, by decide, by decide, by decide⟩
  rw [Int.abs_eq_natAbs x] at hx ⊢
  have hdec := ulawDecodeG711_ulawEncode_of_clamp (Int.ofNat_le.1 hx)
  refine ⟨hdec, ?_, by omega, by omega⟩
  rw [hdec, Int.abs_eq_natAbs]
  split <;> omega

end Sys2Proof.Machine
end

section
/-! PROOFS. What the batch loops of 44_batch_host.md compute, said once: the operand and the result of an
element, the output array with some results stored, and the three steps of an iteration. -/

namespace Sys2Proof.Machine

/-! ### The list with some elements replaced -/

/-- The list with the elements at the places `S` replaced by the values of `f` there. -/
def overwrite {α : Type} (f : Nat → α) (S : Finset Nat) (l : List α) : List α :=
  l.mapIdx fun i x => if i ∈ S then f i else x

@[simp] theorem overwrite_length {α : Type} (f : Nat → α) (S : Finset Nat) (l : List α) :
    (overwrite f S l).length = l.length := List.length_mapIdx

/-- Nothing replaced. -/
@[simp] theorem overwrite_empty {α : Type} (f : Nat → α) (l : List α) : overwrite f ∅ l = l := by
  apply List.ext_getElem <;> simp [overwrite]

/-- One place replaced. -/
theorem overwrite_singleton {α : Type} (f : Nat → α) (i : Nat) (l : List α) :
    overwrite f {i} l = l.set i (f i) := by
  apply List.ext_getElem
  · simp
  · intro j _ _
    by_cases h : j = i
    · simp [overwrite, h]
    · simp [overwrite, h, Ne.symm h]

/-- Replacing at some places and then at others, with the same values, is replacing at all of them. -/
theorem overwrite_overwrite {α : Type} (f : Nat → α) (S T : Finset Nat) (l : List α) :
    overwrite f T (overwrite f S l) = overwrite f (S ∪ T) l := by
  apply List.ext_getElem
  · simp
  · intro j _ _
    by_cases hS : j ∈ S <;> by_cases hT : j ∈ T <;> simp [overwrite, hS, hT]

/-- The first `n` elements replaced. -/
theorem overwrite_range {α : Type} (f : Nat → α) {n : Nat} {l : List α} (h : n ≤ l.length) :
    overwrite f (Finset.range n) l = (List.range n).map f ++ l.drop n := by
  apply List.ext_getElem
  · simp [h]
  · intro j _ _
    by_cases hj : j < n
    · simp [overwrite, hj]
    · have hle : n ≤ j := Nat.le_of_not_lt hj
      simp [overwrite, hj, hle, List.getElem_append_right]

/-- The values of a function at the first elements of a list, place by place. -/
theorem map_range_getD {α β : Type} (f : α → β) (d : α) {n : Nat} {l : List α} (h : n ≤ l.length) :
    (List.range n).map (fun i => f (l.getD i d)) = (l.take n).map f := by
  apply List.ext_getElem
  · simp [h]
  · intro j hj _
    have hjn : j < n := by simpa using hj
    simp [hjn.trans_le h]

/-! ### The output array with some results stored -/

/-- The array with the results `g i` stored at the places `i` in `S`, each in the array's own element type:
what `Wrapper.convOut` and `HostArray.memWrite` do for one place (R88, R94). -/
def HostArray.stored (b : HostArray) (g : Nat → Half) (S : Finset Nat) : HostArray :=
  match b with
  | .samples xs => .samples (overwrite g S xs)
  | .codes cs => .codes (overwrite (fun i => codeField (g i)) S cs)
  | .signedCodes ps => .signedCodes (overwrite (fun i => sext16 (codeField (g i))) S ps)

@[simp] theorem stored_len (b : HostArray) (g : Nat → Half) (S : Finset Nat) :
    (b.stored g S).len = b.len := by
  cases b <;> exact overwrite_length _ _ _

@[simp] theorem outKind_stored (wr : Wrapper) (b : HostArray) (g : Nat → Half) (S : Finset Nat) :
    wr.outKind (b.stored g S) = wr.outKind b := by
  cases wr <;> cases b <;> rfl

@[simp] theorem stored_empty (b : HostArray) (g : Nat → Half) : b.stored g ∅ = b := by
  cases b <;> simp [HostArray.stored]

/-- Results stored at some places and then at others are stored at all of them. -/
@[simp] theorem stored_stored (b : HostArray) (g : Nat → Half) (S T : Finset Nat) :
    (b.stored g S).stored g T = b.stored g (S ∪ T) := by
  cases b <;> simp [HostArray.stored, overwrite_overwrite]

/-- A converted result written at one place. -/
theorem memWrite_eq_stored {wr : Wrapper} {b : HostArray} {g : Nat → Half} {i : Nat} {v : Element}
    (hv : wr.convOut b (g i) = some v) (hi : i < b.len) : b.memWrite i v = some (b.stored g {i}) := by
  cases wr <;> cases b <;> cases hv
  all_goals
    simp only [HostArray.stored, overwrite_singleton]
    exact if_pos hi

/-- The results of `0 .. n-1` stored in an array of samples. -/
theorem stored_range_samples (g : Nat → Half) {n : Nat} {xs : List Half} (h : n ≤ xs.length) :
    (HostArray.samples xs).stored g (Finset.range n) = .samples ((List.range n).map g ++ xs.drop n) :=
  congrArg HostArray.samples (overwrite_range g h)

/-- The results of `0 .. n-1` stored in an array of codes, in either container. -/
theorem stored_range_codes {law : Law} {b : HostArray} (g : Nat → Half) {n : Nat}
    (hb : (Wrapper.encode law).outKind b = true) (h : n ≤ b.len) :
    b.stored g (Finset.range n) = b.putCodes ((List.range n).map fun i => codeField (g i)) := by
  cases b with
  | samples xs => cases hb
  | codes cs => simp [HostArray.stored, HostArray.putCodes, overwrite_range _ h]
  | signedCodes ps => simp [HostArray.stored, HostArray.putCodes, overwrite_range _ h]

/-! ### The operand and the result of an element -/

/-- The word an encode wrapper issues for a sample gives its code, zero-extended (R88). -/
theorem wordResult_encode (cfg : Config) (law : Law) (p : Half) :
    wordResult cfg (commandWord (Wrapper.encode law).op p) = some (zext16 (encodeSample law p).toNat) := by
  cases law with
  | alaw =>
    have hc : alawEncode (s16 p) % 256 = alawEncode (s16 p) := Nat.mod_eq_of_lt (alawEncode_lt _)
    simp [wordResult, decode, Wrapper.op, resultValue, encodeSample, hc]
  | mulaw =>
    have hc : ulawEncode (s16 p) % 256 = ulawEncode (s16 p) := Nat.mod_eq_of_lt (ulawEncode_lt _)
    simp [wordResult, decode, Wrapper.op, resultValue, encodeSample, hc]

/-- The word a decode wrapper issues gives the sample of the code in its low byte (R88, R44). -/
theorem wordResult_decode (cfg : Config) (law : Law) (d : Half) :
    wordResult cfg (commandWord (Wrapper.decode law).op d) = some (decodeCode cfg law (codeField d)) := by
  cases law <;> simp [wordResult, decode, Wrapper.op, resultValue, decodeCode]

/-- A code widened either way carries the code (R94). -/
@[simp] theorem codeField_widen (cc : CodeContainer) (c : Byte) : codeField (cc.widen c) = c := by
  cases cc
  · exact codeField_zext16 c
  · exact codeField_sext16 c

/-- The operand of the command that iteration `i` of a wrapper issues for the input array `a` (R88). -/
def batchOperand (wr : Wrapper) (cc : CodeContainer) (a : HostArray) (i : Nat) : Option Half :=
  (a.memRead i).bind (wr.convIn cc)

/-- What that command writes to RESULT; 0 where there is no such command. -/
def batchResult (cfg : Config) (wr : Wrapper) (cc : CodeContainer) (a : HostArray) (i : Nat) : Half :=
  ((batchOperand wr cc a i).bind fun d => wordResult cfg (commandWord wr.op d)).getD 0#16

/-- A read inside the array has a value. -/
theorem memRead_of_lt_len {a : HostArray} {i : Nat} (h : i < a.len) : ∃ e, a.memRead i = some e := by
  cases a <;> exact ⟨_, by rw [HostArray.memRead, List.getElem?_eq_getElem h]; rfl⟩

/-- Every element of an array of the wrapper's input type has an operand. -/
theorem batchOperand_of_lt_len {wr : Wrapper} (cc : CodeContainer) {a : HostArray} {i : Nat}
    (ha : wr.inKind a = true) (hi : i < a.len) : ∃ d, batchOperand wr cc a i = some d := by
  obtain ⟨e, he⟩ := memRead_of_lt_len hi
  rw [batchOperand, he, Option.bind_some, ← Option.isSome_iff_exists, convIn_isSome cc he, ha]

/-- The command of an operand gives the element's result. -/
theorem wordResult_of_batchOperand {wr : Wrapper} {cc : CodeContainer} {a : HostArray} {i : Nat} {d : Half}
    (hd : batchOperand wr cc a i = some d) (cfg : Config) :
    wordResult cfg (commandWord wr.op d) = some (batchResult cfg wr cc a i) := by
  rw [batchResult, hd, Option.bind_some]
  cases wr with
  | encode law => rw [wordResult_encode]; rfl
  | decode law => rw [wordResult_decode]; rfl

/-- The result of a sample is its code, under every build. -/
theorem batchResult_encode (cfg : Config) (law : Law) (cc : CodeContainer) {xs : List Half} {i : Nat}
    (hi : i < xs.length) : batchResult cfg (.encode law) cc (.samples xs) i =
      zext16 (encodeSample law (xs.getD i 0#16)).toNat := by
  have hd : batchOperand (.encode law) cc (.samples xs) i = some (xs.getD i 0#16) := by
    simp [batchOperand, HostArray.memRead, Wrapper.convIn, hi]
  simpa [wordResult_encode] using (wordResult_of_batchOperand hd cfg).symm

/-- The result of a code is its sample, whichever container and widening pass it. -/
theorem batchResult_decode (cfg : Config) (law : Law) (cc : CodeContainer) {a : HostArray} {cs : List Byte}
    {i : Nat} (ha : a.codeBytes = some cs) (hi : i < cs.length) :
    batchResult cfg (.decode law) cc a i = decodeCode cfg law (cs.getD i 0#8) := by
  have hd : batchOperand (.decode law) cc a i = some (cc.widen (cs.getD i 0#8)) := by
    cases a with
    | samples xs => cases ha
    | codes cs' => cases ha; simp [batchOperand, HostArray.memRead, Wrapper.convIn, hi]
    | signedCodes ps =>
      cases ha
      have hp : i < ps.length := by simpa using hi
      simp [batchOperand, HostArray.memRead, Wrapper.convIn, hp]
  simpa [wordResult_decode] using (wordResult_of_batchOperand hd cfg).symm

/-- An array of codes in either container: its length and which side of a wrapper it fits. -/
theorem codeBytes_kind {b : HostArray} {cs : List Byte} (h : b.codeBytes = some cs) (law : Law) :
    b.len = cs.length ∧ (Wrapper.encode law).outKind b = true ∧ (Wrapper.decode law).inKind b = true := by
  cases b with
  | samples xs => cases h
  | codes cs' => cases h; exact ⟨rfl, rfl, rfl⟩
  | signedCodes ps => cases h; exact ⟨(List.length_map _).symm, rfl, rfl⟩

/-! ### Arrays ready for a batch -/

/-- The arrays `inp` and `out` are `a` and `b`, of the wrapper's element types and with at least `n`
elements: the host precondition (R89), which every store of the loop keeps. -/
structure BatchReady (wr : Wrapper) (inp out n : Nat) (a b : HostArray) (arrays : List HostArray) : Prop where
  input : arrays[inp]? = some a
  output : arrays[out]? = some b
  inKind : wr.inKind a = true
  outKind : wr.outKind b = true
  le_input : n ≤ a.len
  le_output : n ≤ b.len

/-- No array fits both sides of a wrapper. -/
theorem inKind_eq_not_outKind (wr : Wrapper) (b : HostArray) : wr.inKind b = !wr.outKind b := by
  cases wr <;> cases b <;> rfl

section
variable {wr : Wrapper} {inp out n : Nat} {a b : HostArray} {arrays : List HostArray}

/-- Ready arrays are two different ones. -/
theorem BatchReady.inp_ne_out (h : BatchReady wr inp out n a b arrays) : inp ≠ out := by
  rintro rfl
  obtain rfl : a = b := Option.some.inj (h.input.symm.trans h.output)
  have hkind := inKind_eq_not_outKind wr a
  rw [h.inKind, h.outKind] at hkind
  cases hkind

/-- Ready arrays pass the check of the call. -/
theorem BatchReady.checkBatch (h : BatchReady wr inp out n a b arrays) :
    checkBatch wr inp out n arrays = none :=
  checkBatch_eq_none.2 ⟨h.inp_ne_out, a, b, h.input, h.output, h.inKind, h.outKind,
    Int.ofNat_le.2 h.le_input, Int.ofNat_le.2 h.le_output⟩

/-- Arrays that pass the check are ready. -/
theorem batchReady_of_checkBatch (h : checkBatch wr inp out n arrays = none) :
    ∃ a b, BatchReady wr inp out n a b arrays := by
  obtain ⟨_, a, b, hinp, hout, hin, hok, hla, hlb⟩ := checkBatch_eq_none.1 h
  exact ⟨a, b, hinp, hout, hin, hok, Int.ofNat_le.1 hla, Int.ofNat_le.1 hlb⟩

/-- Storing results in the output keeps the arrays ready. -/
theorem BatchReady.stored (h : BatchReady wr inp out n a b arrays) (g : Nat → Half) (S : Finset Nat) :
    BatchReady wr inp out n a (b.stored g S) (arrays.set out (b.stored g S)) where
  input := by rw [List.getElem?_set_ne h.inp_ne_out.symm, h.input]
  output := List.getElem?_set_self (List.getElem?_eq_some_iff.1 h.output).1
  inKind := h.inKind
  outKind := by rw [outKind_stored, h.outKind]
  le_input := h.le_input
  le_output := by rw [stored_len]; exact h.le_output

/-- The output put in its own place changes nothing. -/
theorem BatchReady.set_output (h : BatchReady wr inp out n a b arrays) : arrays.set out b = arrays := by
  obtain ⟨hlt, hb⟩ := List.getElem?_eq_some_iff.1 h.output
  rw [← hb, List.set_getElem_self]

/-! ### The three steps of an iteration -/

/-- The first step: the element's command, the store and the rest of the loop become the next actions, and
the command writes the element's result. -/
theorem BatchReady.perform_iterate_cons {s : State} (h : BatchReady wr inp out n a b s.arrays)
    (cc : CodeContainer) {i : Nat} (hi : i < n) (is : List Nat) :
    ∃ w, (∀ cfg, wordResult cfg w = some (batchResult cfg wr cc a i)) ∧
      perform (.iterate wr cc inp out (i :: is)) s =
        .next (((s.push (.iterate wr cc inp out is)).push (.store wr out i)).push (.issue w)) := by
  obtain ⟨d, hd⟩ := batchOperand_of_lt_len cc h.inKind (hi.trans_le h.le_input)
  obtain ⟨e, he, hconv⟩ := Option.bind_eq_some_iff.1 hd
  exact ⟨_, wordResult_of_batchOperand hd, iterateBatch_cons h.input he hconv⟩

/-- The second step: a word with a result writes it to RESULT. -/
theorem perform_issue_of_wordResult {w : Cmd} {r : Half} {s : State} (h : wordResult s.config w = some r) :
    perform (.issue w) s = .next (s.writeResult r) := by
  rcases transact_cases w s with ⟨i, hdec, e⟩ | ⟨hw, _⟩
  · rw [wordResult_of_decode_instr hdec] at h
    cases h
    exact e
  · rw [wordResult_of_illegal hw] at h
    cases h

/-- The third step: RESULT is read and stored. -/
theorem BatchReady.perform_store {s : State} (h : BatchReady wr inp out n a b s.arrays) {g : Nat → Half}
    {i : Nat} (hi : i < n) (hr : s.result = g i) :
    perform (.store wr out i) s =
      .next (s.readResult.withArrays (s.arrays.set out (b.stored g {i}))) := by
  obtain ⟨v, hv⟩ : ∃ v, wr.convOut b s.result = some v := by
    rw [← Option.isSome_iff_exists, convOut_isSome, h.outKind]
  exact storeResult_eq_next h.output hv (memWrite_eq_stored (hr ▸ hv) (hi.trans_le h.le_output))

end

end Sys2Proof.Machine
end

section
/-! PROOFS. The statements of 44_batch_host.md on one core: the four wrappers, any order of their
iterations, repeated calls, and calls without a loop. -/

namespace Sys2Proof.Machine

/-! ### The call and the loop -/

/-- A call that passes its check leaves the loop over all indices to be done. -/
theorem perform_batch {wr : Wrapper} {inp out : Nat} {n : Int} {s : State} (cc : CodeContainer)
    (h : checkBatch wr inp out n s.arrays = none) :
    perform (.batch wr cc inp out n) s = .next (s.push (.iterate wr cc inp out (List.range n.toNat))) :=
  startBatch_eq_next h

/-- The state after the iterations `todo` with the results `g` into the output array `b`: each result read
and stored, and the last one left in RESULT (R88). -/
def State.afterLoop (s : State) (out : Nat) (b : HostArray) (g : Nat → Half) (todo : List Nat) : State :=
  { s with
    result := (todo.map g).getLast?.getD s.result
    reads := s.reads ++ (todo.map g).map .result
    arrays := s.arrays.set out (b.stored g todo.toFinset) }

/-- A pushed action that goes through is the first of the steps. -/
theorem run_push {act : HostAct} {s t : State} (k : Nat) (h : perform act s = .next t) :
    run (k + 1) (s.push act) = run k t :=
  run_succ k ((step_push s act).trans h)

section
variable {wr : Wrapper} {inp out n : Nat} {a b : HostArray} {s : State}

/-- The state after one iteration, by the operations of its steps. -/
theorem afterLoop_singleton (s : State) (out : Nat) (b : HostArray) (g : Nat → Half) (i : Nat) :
    s.afterLoop out b g [i] =
      (s.writeResult (g i)).readResult.withArrays (s.arrays.set out (b.stored g {i})) := by
  simp only [State.afterLoop, List.toFinset_cons, List.toFinset_nil, insert_empty_eq]
  rfl

/-- The iterations of a list are its first one and then the others. -/
theorem afterLoop_cons (s : State) (out : Nat) (b : HostArray) (g : Nat → Half) (i : Nat) (is : List Nat) :
    (s.afterLoop out b g [i]).afterLoop out (b.stored g [i].toFinset) g is = s.afterLoop out b g (i :: is) := by
  simp [State.afterLoop, List.getLast?_cons]

/-- After some iterations the arrays are ready for others. -/
theorem BatchReady.afterLoop (h : BatchReady wr inp out n a b s.arrays) (g : Nat → Half) (todo : List Nat) :
    BatchReady wr inp out n a (b.stored g todo.toFinset) (s.afterLoop out b g todo).arrays :=
  h.stored g todo.toFinset

/-- One iteration is three steps: the element's command, its transaction, and the store (R88). -/
theorem BatchReady.run_iteration (h : BatchReady wr inp out n a b s.arrays) (cc : CodeContainer)
    {g : Nat → Half} {i : Nat} (hi : i < n) (hg : batchResult s.config wr cc a i = g i) (is : List Nat) :
    run 3 (s.push (.iterate wr cc inp out (i :: is))) =
      .next ((s.afterLoop out b g [i]).push (.iterate wr cc inp out is)) := by
  obtain ⟨w, hw, hloop⟩ := h.perform_iterate_cons cc hi is
  have hresult : wordResult s.config w = some (g i) := (hw s.config).trans (congrArg some hg)
  let rest := s.push (.iterate wr cc inp out is)
  calc run 3 (s.push (.iterate wr cc inp out (i :: is)))
      _ = run 2 ((rest.push (.store wr out i)).push (.issue w)) := run_push 2 hloop
      _ = run 1 ((rest.writeResult (g i)).push (.store wr out i)) :=
        run_push 1 (perform_issue_of_wordResult hresult)
      _ = run 0 ((rest.writeResult (g i)).readResult.withArrays (s.arrays.set out (b.stored g {i}))) :=
        run_push 0 (BatchReady.perform_store (s := rest.writeResult (g i)) h hi rfl)
      _ = .next ((s.afterLoop out b g [i]).push (.iterate wr cc inp out is)) := by
        rw [afterLoop_singleton]
        rfl

/-- The loop over any indices inside both arrays: three steps each, and one for its end. -/
theorem BatchReady.run_iterate (h : BatchReady wr inp out n a b s.arrays) (cc : CodeContainer)
    {g : Nat → Half} {todo : List Nat} (htodo : ∀ i ∈ todo, i < n)
    (hg : ∀ i < n, batchResult s.config wr cc a i = g i) :
    run (3 * todo.length + 1) (s.push (.iterate wr cc inp out todo)) =
      .next (s.afterLoop out b g todo) := by
  induction todo generalizing s b with
  | nil =>
    rw [List.length_nil, run_push (t := s) 0 rfl]
    simp [State.afterLoop, h.set_output]
  | cons i is ih =>
    obtain ⟨hi, his⟩ := List.forall_mem_cons.1 htodo
    have hlen : 3 * (i :: is).length + 1 = 3 + (3 * is.length + 1) := by
      rw [List.length_cons]
      omega
    rw [hlen, run_add (h.run_iteration cc hi (hg i hi) is), ih (h.afterLoop g [i]) his hg, afterLoop_cons]

/-- The whole call: the check, then the loop over `0 .. n-1` (R88). -/
theorem BatchReady.run_batch (h : BatchReady wr inp out n a b s.arrays) (cc : CodeContainer)
    {g : Nat → Half} (hg : ∀ i < n, batchResult s.config wr cc a i = g i) :
    run (3 * n + 2) (s.push (.batch wr cc inp out n)) = .next (s.afterLoop out b g (List.range n)) := by
  have hloop := h.run_iterate cc (todo := List.range n) (fun i => List.mem_range.1) hg
  rw [List.length_range] at hloop
  exact (run_push (3 * n + 1) (perform_batch cc h.checkBatch)).trans hloop

end

/-! ### The arrays of an encode and of a decode wrapper -/

section
variable {inp out n : Nat} {xs : List Half} {b : HostArray} {arrays : List HostArray}

/-- Samples and codes as an encode wrapper takes them. -/
theorem batchReady_encode {law : Law} (hinp : arrays[inp]? = some (.samples xs)) (hout : arrays[out]? = some b)
    (hb : (Wrapper.encode law).outKind b = true) (hx : n ≤ xs.length) (hl : n ≤ b.len) :
    BatchReady (.encode law) inp out n (.samples xs) b arrays :=
  ⟨hinp, hout, rfl, hb, hx, hl⟩

/-- Codes and samples as a decode wrapper takes them. -/
theorem batchReady_decode {cs : List Byte} (law : Law) (hb : b.codeBytes = some cs)
    (hinp : arrays[inp]? = some b) (hout : arrays[out]? = some (.samples xs)) (hc : n ≤ cs.length)
    (hx : n ≤ xs.length) : BatchReady (.decode law) inp out n b (.samples xs) arrays :=
  have ⟨hlen, _, hkind⟩ := codeBytes_kind hb law
  ⟨hinp, hout, hkind, rfl, hc.trans_eq hlen.symm, hx⟩

end

/-- The results of an encode wrapper, by index. -/
def encodeResults (law : Law) (xs : List Half) (i : Nat) : Half :=
  zext16 (encodeSample law (xs.getD i 0#16)).toNat

/-- The results of a decode wrapper, by index. -/
def decodeResults (cfg : Config) (law : Law) (cs : List Byte) (i : Nat) : Half :=
  decodeCode cfg law (cs.getD i 0#8)

/-- The output of an encode wrapper's whole loop: the codes in front of the rest (R91, R94). -/
theorem stored_encodeResults {law : Law} {b : HostArray} {xs : List Half} {n : Nat}
    (hb : (Wrapper.encode law).outKind b = true) (hx : n ≤ xs.length) (hl : n ≤ b.len) :
    b.stored (encodeResults law xs) (Finset.range n) = b.putCodes ((xs.take n).map (encodeSample law)) := by
  rw [stored_range_codes _ hb hl, ← map_range_getD (encodeSample law) 0#16 hx]
  simp only [encodeResults, codeField_zext16]

/-- The output of a decode wrapper's whole loop: the samples in front of the rest (R91). -/
theorem stored_decodeResults (cfg : Config) (law : Law) {cs : List Byte} {xs : List Half} {n : Nat}
    (hc : n ≤ cs.length) (hx : n ≤ xs.length) :
    (HostArray.samples xs).stored (decodeResults cfg law cs) (Finset.range n) =
      .samples ((cs.take n).map (decodeCode cfg law) ++ xs.drop n) := by
  rw [stored_range_samples _ hx, ← map_range_getD (decodeCode cfg law) 0#8 hc]
  rfl

/-- Settles O51: the loop in index order, with the results written as the codes of the samples. -/
theorem batchEncodesElementwise : Obligations.BatchEncodesElementwise := by
  intro law cc s inp out n xs b hinp hout hb hx hl codes results
  have hresults : (List.range n).map (encodeResults law xs) = results := by
    simp only [results, codes, List.map_map]
    exact map_range_getD (fun p => zext16 (encodeSample law p).toNat) 0#16 hx
  rw [(batchReady_encode hinp hout hb hx hl).run_batch cc (g := encodeResults law xs)
      (fun i hi => batchResult_encode s.config law cc (hi.trans_le hx)),
    State.afterLoop, hresults, List.toFinset_range, stored_encodeResults hb hx hl]

/-- Settles O52: the loop in index order, with the results written as the samples of the codes. -/
theorem batchDecodesElementwise : Obligations.BatchDecodesElementwise := by
  intro law cc s inp out n a cs xs hinp ha hout hc hx samples
  have hresults : (List.range n).map (decodeResults s.config law cs) = samples :=
    map_range_getD (decodeCode s.config law) 0#8 hc
  rw [(batchReady_decode law ha hinp hout hc hx).run_batch cc (g := decodeResults s.config law cs)
      (fun i hi => batchResult_decode s.config law cc ha (hi.trans_le hc)),
    State.afterLoop, hresults, List.toFinset_range, stored_decodeResults s.config law hc hx]

/-! ### Any order -/

/-- A loop over the indices `0 .. n-1` in any order stores the results of all of them, and leaves STATUS and
the pending actions (R92). -/
theorem BatchReady.run_iterate_perm {wr : Wrapper} {inp out n : Nat} {a b : HostArray} {s : State}
    (h : BatchReady wr inp out n a b s.arrays) (cc : CodeContainer) {g : Nat → Half} {order : List Nat}
    (hperm : order.Perm (List.range n)) (hg : ∀ i < n, batchResult s.config wr cc a i = g i) :
    ∃ t, run (3 * n + 1) (s.push (.iterate wr cc inp out order)) = .next t ∧
      t.arrays = s.arrays.set out (b.stored g (Finset.range n)) ∧ t.ill = s.ill ∧ t.inputs = s.inputs := by
  have hlen : order.length = n := hperm.length_eq.trans List.length_range
  have hset : order.toFinset = Finset.range n := (List.toFinset_eq_of_perm _ _ hperm).trans (List.toFinset_range n)
  have hrun := h.run_iterate cc (todo := order) (fun i hi => List.mem_range.1 (hperm.mem_iff.1 hi)) hg
  rw [hlen] at hrun
  exact ⟨_, hrun, by rw [State.afterLoop, hset], rfl, rfl⟩

/-- Settles O53: the set of indices a loop runs over decides what it stores. -/
theorem batchOrderDoesNotMatter : Obligations.BatchOrderDoesNotMatter := by
  intro law cc s inp out n xs b cs order hb hx hc hperm
  obtain ⟨hlen, hkind, -⟩ := codeBytes_kind hb law
  refine ⟨fun hinp hout => ?_, fun hinp hout => ?_⟩
  · have hl : n ≤ b.len := hc.trans_eq hlen.symm
    rw [← stored_encodeResults hkind hx hl]
    exact (batchReady_encode hinp hout hkind hx hl).run_iterate_perm cc hperm
      (fun i hi => batchResult_encode s.config law cc (hi.trans_le hx))
  · rw [← stored_decodeResults s.config law hc hx]
    exact (batchReady_decode law hb hinp hout hc hx).run_iterate_perm cc hperm
      (fun i hi => batchResult_decode s.config law cc hb (hi.trans_le hc))

/-! ### Calls without a loop, and repeated calls -/

/-- Settles O54: the call passes its check and leaves the loop over no index. -/
theorem batchWithoutCountDoesNothing : Obligations.BatchWithoutCountDoesNothing := by
  intro wr cc s inp out n a b hne hinp hout hin hok hn
  have hcheck : checkBatch wr inp out n s.arrays = none :=
    checkBatch_eq_none.2 ⟨hne, a, b, hinp, hout, hin, hok, by omega, by omega⟩
  calc run 2 (s.push (.batch wr cc inp out n))
      _ = run 1 (s.push (.iterate wr cc inp out (List.range n.toNat))) :=
        run_push 1 (perform_batch cc hcheck)
      _ = run 1 (s.push (.iterate wr cc inp out [])) := by rw [Int.toNat_of_nonpos hn, List.range_zero]
      _ = .next s := run_push 0 rfl

/-- A call whose check fails stops with its fault. -/
theorem step_batch_of_checkBatch {wr : Wrapper} {inp out : Nat} {n : Int} {s : State} {r : Fault}
    (cc : CodeContainer) (h : checkBatch wr inp out n s.arrays = some r) :
    step (s.push (.batch wr cc inp out n)) = .fault r := by
  rw [step_push, perform, startBatch, h]

/-- Settles O55: sharing fails the first test of the check, a short array the last one. -/
theorem batchPreconditionViolationFaults : Obligations.BatchPreconditionViolationFaults := by
  intro wr cc s inp out n
  refine ⟨fun hio => step_batch_of_checkBatch cc (if_pos hio),
    fun a b hne hinp hout hin hok hshort => step_batch_of_checkBatch cc ?_⟩
  have hlen : ¬(n ≤ a.len ∧ n ≤ b.len) := by omega
  simp [checkBatch, hne, hinp, hout, hin, hok, hlen]

/-- A call that does not stop in its first step found its arrays ready. -/
theorem batchReady_of_run {wr : Wrapper} {cc : CodeContainer} {inp out n k : Nat} {s t : State}
    (h : run (k + 1) (s.push (.batch wr cc inp out n)) = .next t) :
    ∃ a b, BatchReady wr inp out n a b s.arrays := by
  cases hcheck : checkBatch wr inp out n s.arrays with
  | none => exact batchReady_of_checkBatch hcheck
  | some r =>
    simp only [run, Host.Core.run, Sys2Proof.core, step_batch_of_checkBatch cc hcheck] at h
    cases h

/-- Settles O56: the first call leaves the input and stores the results, which the second one stores
again. -/
theorem batchIsIdempotent : Obligations.BatchIsIdempotent := by
  intro wr cc s t inp out n hrun
  obtain ⟨a, b, hready⟩ := batchReady_of_run hrun
  rw [hready.run_batch cc (fun i _ => rfl)] at hrun
  cases hrun
  refine ⟨_, (hready.stored _ _).run_batch cc (fun i _ => rfl), ?_⟩
  simp [State.afterLoop]

end Sys2Proof.Machine
end

section
/-! PROOFS. The statement of 44_batch_host.md on a batch split across independent cores (R92): what is left
of a part, the invariant that every schedule keeps, and a schedule that finishes. -/

namespace Sys2Proof.Machine

/-! ### What is left to do -/

/-- The steps a pending action takes until what it has left behind is done too (log 9). -/
@[simp] def HostAct.stepsLeft : HostAct → Nat
  | .batch _ _ _ _ n => 3 * n.toNat + 2
  | .iterate _ _ _ _ todo => 3 * todo.length + 1
  | _ => 1

/-- The places a pending action will store a result at. -/
@[simp] def HostAct.indicesLeft : HostAct → List Nat
  | .batch _ _ _ _ n => List.range n.toNat
  | .iterate _ _ _ _ todo => todo
  | .store _ _ i => [i]
  | _ => []

/-- The steps that all pending actions of a core take. -/
def State.stepsLeft (s : State) : Nat := (s.inputs.map HostAct.stepsLeft).sum

/-- The places that all pending actions of a core will store a result at. -/
def State.indicesLeft (s : State) : List Nat := s.inputs.flatMap HostAct.indicesLeft

/-- The steps that all cores take. -/
def SharedHost.stepsLeft (h : SharedHost) : Nat := (h.instances.map State.stepsLeft).sum

/-- A core with pending actions has steps to take. -/
theorem stepsLeft_pos {s : State} (h : s.inputs ≠ []) : 0 < s.stepsLeft := by
  obtain ⟨act, rest, hin⟩ := List.exists_cons_of_ne_nil h
  have hact : 0 < act.stepsLeft := by cases act <;> exact Nat.succ_pos _
  simp only [State.stepsLeft, hin, List.map_cons, List.sum_cons]
  omega

/-- Putting another element in a list changes a sum over it by the difference of the two. -/
theorem sum_map_set {α : Type} (f : α → Nat) {l : List α} {k : Nat} {x y : α} (h : l[k]? = some y) :
    ((l.set k x).map f).sum + f y = (l.map f).sum + f x := by
  induction l generalizing k with
  | nil => cases h
  | cons z zs ih =>
    cases k with
    | zero => cases h; simp only [List.set_cons_zero, List.map_cons, List.sum_cons]; omega
    | succ k =>
      have hzs := ih (k := k) h
      simp only [List.set_cons_succ, List.map_cons, List.sum_cons]
      omega

/-! ### One core inside its part -/

/-- A core in the middle of a part of a split batch with the results `g`: it is done, or before an
iteration, or before the transaction or the store of one. -/
inductive InPart (wr : Wrapper) (cc : CodeContainer) (inp out : Nat) (g : Nat → Half) (s : State) : Prop where
  | idle (hin : s.inputs = [])
  | loop (todo : List Nat) (hin : s.inputs = [.iterate wr cc inp out todo])
  | issue (w : Cmd) (i : Nat) (todo : List Nat)
      (hin : s.inputs = [.issue w, .store wr out i, .iterate wr cc inp out todo])
      (hw : wordResult s.config w = some (g i))
  | store (i : Nat) (todo : List Nat) (hin : s.inputs = [.store wr out i, .iterate wr cc inp out todo])
      (hr : s.result = g i)

/-- What a step of a core inside its part does: it stores the results of the places `T` in the output array
`b`, stays inside the part, and has these places and one step less left. -/
structure PartStep (wr : Wrapper) (cc : CodeContainer) (inp out : Nat) (g : Nat → Half) (b : HostArray)
    (T : Finset Nat) (s t : State) : Prop where
  inPart : InPart wr cc inp out g t
  arrays : t.arrays = s.arrays.set out (b.stored g T)
  indices : ∀ i, i ∈ s.indicesLeft ↔ i ∈ T ∨ i ∈ t.indicesLeft
  steps : t.stepsLeft = s.stepsLeft - 1

section
variable {wr : Wrapper} {cc : CodeContainer} {inp out n : Nat} {a b : HostArray} {g : Nat → Half}

/-- The arrays in a core's own state have no part in its part. -/
theorem InPart.withArrays {s : State} (h : InPart wr cc inp out g s) (bs : List HostArray) :
    InPart wr cc inp out g (s.withArrays bs) := by
  cases h with
  | idle hin => exact .idle hin
  | loop todo hin => exact .loop todo hin
  | issue w i todo hin hw => exact .issue w i todo hin hw
  | store i todo hin hr => exact .store i todo hin hr

/-- A core inside its part never stops: the steps of an iteration, the end of the loop, the idle step. -/
theorem BatchReady.step_inPart {s : State} (h : BatchReady wr inp out n a b s.arrays)
    (hs : InPart wr cc inp out g s) (hlt : ∀ i ∈ s.indicesLeft, i < n)
    (hg : ∀ i < n, batchResult s.config wr cc a i = g i) :
    ∃ t T, step s = .next t ∧ PartStep wr cc inp out g b T s t := by
  have hsame : s.arrays = s.arrays.set out (b.stored g ∅) := by rw [stored_empty, h.set_output]
  cases hs with
  | idle hin =>
    exact ⟨s, ∅, step_nil hin, .idle hin, hsame, by simp, by simp [State.stepsLeft, hin]⟩
  | loop todo hin =>
    rw [step_cons hin]
    cases todo with
    | nil =>
      refine ⟨_, ∅, rfl, .idle rfl, hsame, ?_, ?_⟩
      · simp [State.indicesLeft, hin]
      · simp [State.stepsLeft, hin]
    | cons i is =>
      have hi : i < n := hlt i (by simp [State.indicesLeft, hin])
      obtain ⟨w, hw, e⟩ := BatchReady.perform_iterate_cons (s := s.withInputs []) h cc hi is
      refine ⟨_, ∅, e, .issue w i is rfl ((hw _).trans (congrArg some (hg i hi))), hsame, ?_, ?_⟩
      · simp [State.indicesLeft, hin]
      · simp only [State.stepsLeft, State.push_inputs, State.withInputs_inputs, hin, List.map_cons, List.map_nil,
          List.sum_cons, HostAct.stepsLeft, List.length_cons]
        omega
  | issue w i todo hin hw =>
    rw [step_cons hin]
    refine ⟨_, ∅, perform_issue_of_wordResult hw, .store i todo rfl rfl, hsame, ?_, ?_⟩
    · simp [State.indicesLeft, hin]
    · simp [State.stepsLeft, hin]
  | store i todo hin hr =>
    have hi : i < n := hlt i (by simp [State.indicesLeft, hin])
    rw [step_cons hin]
    refine ⟨_, {i}, BatchReady.perform_store (s := s.withInputs [.iterate wr cc inp out todo]) h hi hr,
      .loop todo rfl, rfl, ?_, ?_⟩
    · simp [State.readResult, State.indicesLeft, hin]
    · simp [State.readResult, State.stepsLeft, hin]

end

/-! ### All cores -/

/-- The invariant of a split batch on the arrays `base`, of which `a` is the input and `b` the output: every
core is inside its part and computes the results `g`, the places `done` hold theirs, and the others are
exactly those that some core still has to store. -/
structure SplitRun (wr : Wrapper) (cc : CodeContainer) (inp out n : Nat) (a b : HostArray) (g : Nat → Half)
    (base : List HostArray) (done : Finset Nat) (h : SharedHost) : Prop where
  arrays : h.arrays = base.set out (b.stored g done)
  inPart : ∀ s ∈ h.instances, InPart wr cc inp out g s
  results : ∀ s ∈ h.instances, ∀ i < n, batchResult s.config wr cc a i = g i
  covers : ∀ i, i < n ↔ i ∈ done ∨ ∃ (k : Nat) (s : State), h.instances[k]? = some s ∧ i ∈ s.indicesLeft

section
variable {wr : Wrapper} {cc : CodeContainer} {inp out n : Nat} {a b : HostArray} {g : Nat → Half}
  {base : List HostArray} {done : Finset Nat} {h : SharedHost}

/-- When every core is idle, all results are stored. -/
theorem SplitRun.arrays_of_idle (hrun : SplitRun wr cc inp out n a b g base done h) (hidle : h.idle = true) :
    h.arrays = base.set out (b.stored g (Finset.range n)) := by
  have hdone : done = Finset.range n := by
    ext i
    rw [Finset.mem_range, hrun.covers i]
    refine ⟨.inl, fun hi => hi.resolve_right ?_⟩
    rintro ⟨k, s, hk, hmem⟩
    have hempty := List.all_eq_true.1 hidle s (List.mem_of_getElem? hk)
    simp [State.indicesLeft, List.isEmpty_iff.1 hempty] at hmem
  rw [hrun.arrays, hdone]

/-- The places left after a step of core `k` that stored the places `T`. -/
theorem covers_set {p : Platform} {k : Nat} {s t : State} {T : Finset Nat} (hk : p[k]? = some s)
    (hst : ∀ i, i ∈ s.indicesLeft ↔ i ∈ T ∨ i ∈ t.indicesLeft) (i : Nat) :
    (∃ (j : Nat) (u : State), p[j]? = some u ∧ i ∈ u.indicesLeft) ↔
      i ∈ T ∨ ∃ (j : Nat) (u : State), (p.set k t)[j]? = some u ∧ i ∈ u.indicesLeft := by
  have hset : (p.set k t)[k]? = some t := List.getElem?_set_self (List.getElem?_eq_some_iff.1 hk).1
  constructor
  · rintro ⟨j, u, hj, hi⟩
    by_cases hjk : j = k
    · subst hjk
      obtain rfl : s = u := Option.some.inj (hk.symm.trans hj)
      exact ((hst i).1 hi).imp_right fun hit => ⟨j, t, hset, hit⟩
    · exact .inr ⟨j, u, by rw [List.getElem?_set_ne (Ne.symm hjk), hj], hi⟩
  · rintro (hi | ⟨j, u, hj, hi⟩)
    · exact ⟨k, s, hk, (hst i).2 (.inl hi)⟩
    · by_cases hjk : j = k
      · subst hjk
        obtain rfl : t = u := Option.some.inj (hset.symm.trans hj)
        exact ⟨j, s, hk, (hst i).2 (.inr hi)⟩
      · exact ⟨j, u, by rw [← hj, List.getElem?_set_ne (Ne.symm hjk)], hi⟩

/-- A step of any core goes through and keeps the invariant, and that core has one step less left. -/
theorem SplitRun.step (hrun : SplitRun wr cc inp out n a b g base done h)
    (hbase : BatchReady wr inp out n a b base) {k : Nat} {s : State} (hk : h.instances[k]? = some s) :
    ∃ h' done', h.step k = .next h' ∧ SplitRun wr cc inp out n a b g base done' h' ∧
      h'.instances.length = h.instances.length ∧
      h'.stepsLeft + s.stepsLeft = h.stepsLeft + (s.stepsLeft - 1) := by
  have hmem : s ∈ h.instances := List.mem_of_getElem? hk
  have hready : BatchReady wr inp out n a (b.stored g done) (s.withArrays h.arrays).arrays := by
    rw [State.withArrays_arrays, hrun.arrays]
    exact hbase.stored g done
  obtain ⟨t, T, hstep, ht⟩ := hready.step_inPart ((hrun.inPart s hmem).withArrays h.arrays)
    (fun i hi => (hrun.covers i).2 (.inr ⟨k, s, hk, hi⟩)) (hrun.results s hmem)
  refine ⟨_, done ∪ T, sharedHost_step hk hstep, ⟨?_, fun u hu => ?_, fun u hu => ?_, fun i => ?_⟩,
    List.length_set, ?_⟩
  · rw [ht.arrays, State.withArrays_arrays, hrun.arrays, List.set_set, stored_stored]
  · rcases List.mem_or_eq_of_mem_set hu with hu | rfl
    · exact hrun.inPart u hu
    · exact ht.inPart.withArrays s.arrays
  · rcases List.mem_or_eq_of_mem_set hu with hu | rfl
    · exact hrun.results u hu
    · rw [State.withArrays_config, step_config hstep]
      exact hrun.results s hmem
  · rw [hrun.covers i, covers_set (t := t.withArrays s.arrays) hk ht.indices i, Finset.mem_union, or_assoc]
  · exact (sum_map_set State.stepsLeft hk).trans (congrArg (h.stepsLeft + ·) ht.steps)

/-- No schedule stops, and each keeps the invariant. -/
theorem SplitRun.run (hrun : SplitRun wr cc inp out n a b g base done h)
    (hbase : BatchReady wr inp out n a b base) {schedule : List Nat} (hadm : h.admits schedule) :
    ∃ h' done', SharedHost.run schedule h = .next h' ∧ SplitRun wr cc inp out n a b g base done' h' := by
  induction schedule generalizing h done with
  | nil => exact ⟨h, done, rfl, hrun⟩
  | cons k ks ih =>
    obtain ⟨hk, hks⟩ := List.forall_mem_cons.1 hadm
    obtain ⟨h', done', hstep, hrun', hlen, -⟩ := hrun.step hbase (List.getElem?_eq_getElem hk)
    rw [sharedHost_run_cons hstep]
    exact ih hrun' fun j hj => hlen ▸ hks j hj

/-- Stepping cores that are not idle finishes, by induction on the steps left. -/
theorem SplitRun.exists_idle (hrun : SplitRun wr cc inp out n a b g base done h)
    (hbase : BatchReady wr inp out n a b base) :
    ∃ schedule h', h.admits schedule ∧ SharedHost.run schedule h = .next h' ∧ h'.idle = true := by
  induction hm : h.stepsLeft using Nat.strong_induction_on generalizing h done with
  | _ m ih =>
    by_cases hidle : h.idle = true
    · exact ⟨[], h, fun _ hj => absurd hj List.not_mem_nil, rfl, hidle⟩
    · obtain ⟨s, hs, hne⟩ : ∃ s ∈ h.instances, s.inputs ≠ [] := by
        simpa [SharedHost.idle] using hidle
      obtain ⟨k, hk⟩ := List.mem_iff_getElem?.1 hs
      obtain ⟨h₁, done₁, hstep, hrun₁, hlen, hsteps⟩ := hrun.step hbase hk
      have hpos := stepsLeft_pos hne
      obtain ⟨ks, h', hadm, hks, hidle'⟩ := ih h₁.stepsLeft (by omega) hrun₁ rfl
      have hklt : k < h.instances.length := (List.getElem?_eq_some_iff.1 hk).1
      exact ⟨k :: ks, h', List.forall_mem_cons.2 ⟨hklt, fun j hj => hlen ▸ hadm j hj⟩,
        (sharedHost_run_cons hstep).trans hks, hidle'⟩

/-- However the cores are scheduled, the arrays end with all results stored. -/
theorem SplitRun.alwaysLeaves (hrun : SplitRun wr cc inp out n a b g base done h)
    (hbase : BatchReady wr inp out n a b base) :
    h.AlwaysLeaves (base.set out (b.stored g (Finset.range n))) := by
  refine ⟨fun schedule hadm => ?_, hrun.exists_idle hbase⟩
  obtain ⟨h', done', hend, hrun'⟩ := hrun.run hbase hadm
  exact ⟨h', hend, hrun'.arrays_of_idle⟩

/-! ### The split call -/

/-- Core `k` gets part `k`, if there is one. -/
theorem assignParts_getElem? (parts : List (List Nat)) (p : Platform) (k : Nat) :
    (assignParts wr cc inp out parts p)[k]? =
      p[k]?.map fun s => (parts[k]?).elim s fun part => s.push (.iterate wr cc inp out part) := by
  induction parts generalizing p k with
  | nil => simp [assignParts]
  | cons part parts ih =>
    cases p with
    | nil => simp [assignParts]
    | cons s ss =>
      cases k with
      | zero => simp [assignParts]
      | succ k => simpa [assignParts] using ih ss k

/-- Before its part an idle core has nothing to store, and after getting it exactly the part. -/
theorem mem_indicesLeft_assigned {s : State} (hs : s.inputs = []) (part : Option (List Nat)) (i : Nat) :
    i ∈ (part.elim s fun todo => s.push (.iterate wr cc inp out todo)).indicesLeft ↔
      ∃ todo, part = some todo ∧ i ∈ todo := by
  cases part <;> simp [State.indicesLeft, hs]

/-- A split call on idle cores establishes the invariant, with nothing stored yet. -/
theorem BatchReady.splitRun_assignParts (hbase : BatchReady wr inp out n a b h.arrays)
    {parts : List (List Nat)} (hidle : h.idle = true) (hlen : parts.length ≤ h.instances.length)
    (hperm : parts.flatten.Perm (List.range n))
    (hg : ∀ s ∈ h.instances, ∀ i < n, batchResult s.config wr cc a i = g i) :
    SplitRun wr cc inp out n a b g h.arrays ∅ ⟨assignParts wr cc inp out parts h.instances, h.arrays⟩ := by
  have hnil : ∀ s ∈ h.instances, s.inputs = [] := by simpa [SharedHost.idle] using hidle
  have hassigned : ∀ u ∈ assignParts wr cc inp out parts h.instances, ∃ s ∈ h.instances,
      u = s ∨ ∃ part, u = s.push (.iterate wr cc inp out part) := by
    intro u hu
    obtain ⟨k, hk⟩ := List.mem_iff_getElem?.1 hu
    rw [assignParts_getElem?] at hk
    obtain ⟨s, hs, rfl⟩ := Option.map_eq_some_iff.1 hk
    refine ⟨s, List.mem_of_getElem? hs, ?_⟩
    cases parts[k]? with
    | none => exact .inl rfl
    | some part => exact .inr ⟨part, rfl⟩
  refine ⟨?_, fun u hu => ?_, fun u hu => ?_, fun i => ?_⟩
  · rw [stored_empty, hbase.set_output]
  · obtain ⟨s, hs, rfl | ⟨part, rfl⟩⟩ := hassigned u hu
    · exact .idle (hnil u hs)
    · exact .loop part (congrArg _ (hnil s hs))
  · obtain ⟨s, hs, rfl | ⟨part, rfl⟩⟩ := hassigned u hu
    · exact hg u hs
    · exact hg s hs
  · rw [← List.mem_range, ← hperm.mem_iff, List.mem_flatten]
    simp only [assignParts_getElem?, Finset.notMem_empty, false_or]
    constructor
    · rintro ⟨part, hpart, hi⟩
      obtain ⟨k, hk⟩ := List.mem_iff_getElem?.1 hpart
      have hlt : k < h.instances.length := (List.getElem?_eq_some_iff.1 hk).1.trans_le hlen
      refine ⟨k, _, by rw [List.getElem?_eq_getElem hlt]; rfl, ?_⟩
      exact (mem_indicesLeft_assigned (hnil _ (List.getElem_mem hlt)) _ i).2 ⟨part, hk, hi⟩
    · rintro ⟨k, u, hu, hi⟩
      obtain ⟨s, hs, rfl⟩ := Option.map_eq_some_iff.1 hu
      obtain ⟨part, hk, hip⟩ := (mem_indicesLeft_assigned (hnil s (List.mem_of_getElem? hs)) _ i).1 hi
      exact ⟨part, List.mem_of_getElem? hk, hip⟩

/-- A split call on ready arrays goes through, and however the cores are scheduled the arrays end with all
results stored. -/
theorem BatchReady.startSplit_alwaysLeaves (hbase : BatchReady wr inp out n a b h.arrays)
    {parts : List (List Nat)} (hidle : h.idle = true) (hlen : parts.length ≤ h.instances.length)
    (hperm : parts.flatten.Perm (List.range n))
    (hg : ∀ s ∈ h.instances, ∀ i < n, batchResult s.config wr cc a i = g i) :
    ∃ h₀, h.startSplit wr cc inp out n parts = .next h₀ ∧
      h₀.AlwaysLeaves (h.arrays.set out (b.stored g (Finset.range n))) :=
  ⟨_, startSplit_eq_next hbase.checkBatch hlen hperm,
    (hbase.splitRun_assignParts hidle hlen hperm hg).alwaysLeaves hbase⟩

end

/-- The samples of the A-law decoder do not depend on the build, those of the μ-law decoder do. -/
theorem decodeCode_congr {law : Law} {cfg cfg' : Config} (h : law = .mulaw → cfg = cfg') (c : Byte) :
    decodeCode cfg law c = decodeCode cfg' law c := by
  cases law with
  | alaw => rfl
  | mulaw => rw [h rfl]

/-- Settles O60: all cores compute the same results, and the places of the parts are together the index
range. -/
theorem batchSplitAcrossInstancesDoesNotMatter : Obligations.BatchSplitAcrossInstancesDoesNotMatter := by
  intro law cc h inp out n xs b cs parts hb hx hc hidle hlen hperm
  obtain ⟨hblen, hkind, -⟩ := codeBytes_kind hb law
  refine ⟨fun hinp hout => ?_, fun cfg hcfg hinp hout => ?_⟩
  · have hl : n ≤ b.len := hc.trans_eq hblen.symm
    rw [← stored_encodeResults hkind hx hl]
    exact (batchReady_encode hinp hout hkind hx hl).startSplit_alwaysLeaves hidle hlen hperm
      (fun s _ i hi => batchResult_encode s.config law cc (hi.trans_le hx))
  · rw [← stored_decodeResults cfg law hc hx]
    refine (batchReady_decode law hb hinp hout hc hx).startSplit_alwaysLeaves hidle hlen hperm
      (fun s hs i hi => ?_)
    rw [batchResult_decode s.config law cc hb (hi.trans_le hc)]
    exact decodeCode_congr (fun hlaw => hcfg hlaw s hs) _

end Sys2Proof.Machine
end

section
/-! PROOFS. The statements of 60_exceptions.md: what IllegalCommand records and leaves, clean command
sequences, an idle host, and a loss of power. -/

namespace Sys2Proof.Machine

/-! ### IllegalCommand -/

/-- What an illegal word leaves: ILL set and nothing of the word (R96, R97). -/
theorem afterWord_of_illegal {w : Cmd} (h : legalWord w = false) (s : State) :
    s.afterWord w = s.setIll := by
  simp [State.afterWord, wordResult_of_illegal h, h, State.setIll]

/-- An issued illegal word sets ILL. -/
theorem step_issue_of_illegal {w : Cmd} (h : legalWord w = false) (s : State) :
    step (s.push (.issue w)) = .next s.setIll := by
  rw [step_push, perform, transact_eq, afterWord_of_illegal h]

/-- STATUS has two values (R97). -/
theorem status_zero_or_one (s : State) : s.status = 0x0000#16 ∨ s.status = 0x0001#16 := by
  rw [State.status_eq]
  cases s.ill
  · exact .inl rfl
  · exact .inr rfl

/-- Settles O11: every illegal word leaves `s.setIll`, which names no word, and setting ILL again changes
nothing. -/
theorem illegalCommandRecordsCauseOne : Obligations.IllegalCommandRecordsCauseOne :=
  ⟨status_zero_or_one, fun s _ _ hw hw' => ⟨s.setIll, step_issue_of_illegal hw s, State.status_eq s.setIll,
    step_issue_of_illegal hw' s, step_issue_of_illegal hw' s.setIll⟩⟩

/-- Settles O13: the earlier words are transacted with the rest pending, and the illegal word is one more
step, which sets ILL. -/
theorem illegalCommandIsPrecise : Obligations.IllegalCommandIsPrecise := by
  intro s before after w hw
  refine ⟨(s.afterWords before).withInputs (after.map .issue), ?_, rfl, ?_⟩
  · rw [List.map_append, run_issues_append]
  · rw [List.map_append, List.map_cons, run_add (run_issues_append s before _),
      run_succ 0 (step_issue_cons _ w _), run_zero, afterWord_of_illegal hw]
    rfl

/-- After some words from a clean state, the state is clean exactly if all of them were legal. -/
theorem afterWords_clean_iff {s : State} (h : s.clean = true) (ws : List Cmd) :
    (s.afterWords ws).clean = true ↔ ∀ w ∈ ws, legalWord w = true := by
  have hill : s.ill = false := by simpa [State.clean] using h
  simp [State.clean, State.afterWords, hill]

/-- Settles O15: the run transacts the words in order, and ILL at its end tells whether one was
illegal. -/
theorem cleanRunHadOnlyLegalWords : Obligations.CleanRunHadOnlyLegalWords := by
  intro s ws hclean
  refine ⟨(s.afterWords ws).withInputs [], ?_, afterWords_clean_iff hclean ws⟩
  rw [← run_issues_append, List.append_nil]

/-! ### Nothing to do, and a loss of power -/

/-- Settles O19, by induction on the number of steps, each of which is idle. -/
theorem idleHostChangesNothing : Obligations.IdleHostChangesNothing := by
  intro s k hin
  induction k with
  | zero => exact run_zero s
  | succ k ih => rw [run_succ k (step_nil hin), ih]

/-- A reset right after a loss of power leaves none of the free values, only the count of power-ups. -/
theorem resetCore_powerCycle (s : State) (draw : Nat) :
    (s.powerCycle draw).resetCore =
      { s with result := 0x0000#16, ill := false, powerUps := s.powerUps + 1 } := rfl

/-- Settles O22: the high bits of STATUS are 0 in every state, and the reset overwrites both registers. -/
theorem resetAfterPowerLossIsDefined : Obligations.ResetAfterPowerLossIsDefined := by
  intro s draw
  refine ⟨s.powerCycle draw, step_push s _, (statusIsIllUnderZeros _).2, State.powerCycle_config s draw, ?_⟩
  rw [step_push, perform, resetCore_powerCycle]

end Sys2Proof.Machine
end

section
/-! PROOFS. The statements of 70_reset_and_hazards.md: the reset state, reset against the words issued during
it, and which commands write to RESULT the 0x0000 that it also holds after a reset (R117). -/

namespace Sys2Proof.Machine

/-! ### Patterns that are 0 -/

/-- `zext_16` of a value that fits is 0x0000 only for 0. -/
theorem zext16_eq_zero_iff {v : Nat} (h : v < 65536) : zext16 v = 0x0000#16 ↔ v = 0 := by
  rw [← BitVec.toNat_inj, zext16_toNat h]
  rfl

/-- The pattern of a sample is 0x0000 only for the sample 0. -/
theorem bits16_eq_zero_iff {v : Int} (h0 : -32768 ≤ v) (h1 : v ≤ 32767) : bits16 v = 0x0000#16 ↔ v = 0 := by
  rw [← BitVec.toInt_inj, toInt_bits16 h0 h1]
  rfl

/-! ### Codes and samples that are 0 -/

/-- The A-law code 0 stands for one interval of negative samples: its 7-bit value is the mask 0x55, segment 5
and nibble 5 (R117). -/
theorem alawEncode_eq_zero_iff {x : Int} (h0 : -32768 ≤ x) : alawEncode x = 0 ↔ -5632 ≤ x ∧ x ≤ -5377 := by
  cases x with
  | ofNat m =>
    have hm : 0 ≤ Int.ofNat m := Int.natCast_nonneg m
    have hcode : 128 ≤ alawEncode (.ofNat m) := (le_alawEncode_iff _).2 hm
    exact iff_of_false (by omega) (by omega)
  | negSucc m =>
    have hbody : alawBody m = 0x55 ↔ 5376 ≤ m ∧ m ≤ 5631 :=
      alawBody_eq_iff (s := 5) (q := 5) (by omega) (by decide) (by decide)
    rw [alawEncode_negSucc, Nat.xor_eq_zero_iff, hbody]
    omega

/-- The μ-law code 0 stands for the last interval of negative samples: its 7-bit value is the mask 0x7F,
segment 7 and nibble 15 (R117). -/
theorem ulawEncode_eq_zero_iff (x : Int) : ulawEncode x = 0 ↔ x ≤ -31612 := by
  have hlt := ulawBody_lt (ulawBiased x.natAbs)
  have hbody : ulawBody (ulawBiased x.natAbs) = 0x7F ↔ 31612 ≤ x.natAbs := by
    rw [ulawBiased_eq_min,
      ulawBody_eq_iff (s := 7) (q := 15) (by omega) (Nat.min_le_right _ _) (by decide) (by decide), ulawLow]
    omega
  rw [ulawEncode_eq]
  split <;> omega

/-- No A-law code decodes to 0 (42_alaw.md R69). -/
theorem alawDecode_ne_zero {c : Nat} (hc : c ≤ 255) : alawDecode c ≠ 0 := by
  have hge := eight_le_alawClosedMagnitude (alawCodeSegment c) (alawCodeNibble c)
  rw [alawDecode_eq hc]
  split <;> omega

/-- Under `G711` the codes with the complemented fields 0 and 0, of either sign, decode to 0 (43_mulaw.md
R82). -/
theorem ulawDecodeG711_eq_zero_iff {c : Nat} (hc : c ≤ 255) :
    ulawDecodeG711 c = 0 ↔ c = 0xFF ∨ c = 0x7F := by
  constructor
  · intro h
    have hcode := ulawCode_add_fields hc
    have hpos := g711ClosedMagnitude_pos (s := ulawCodeSegment c) (q := ulawCodeNibble c)
    rw [ulawDecodeG711_eq] at h
    split at h <;> split at hcode <;> omega
  · rintro (rfl | rfl) <;> rfl

/-- Under `DOC_LITERAL` no code decodes to 0 (R82). -/
theorem ulawDecodeDoc_ne_zero (c : Nat) : ulawDecodeDoc c ≠ 0 := by
  have hpos := docClosedMagnitude_code_pos c
  rw [ulawDecodeDoc_eq]
  split <;> omega

/-- The codes that decode to 0 under the rule of a build (R82). -/
theorem ulawDecode_eq_zero_iff (r : MulawDecodeRule) {c : Nat} (hc : c ≤ 255) :
    ulawDecode r c = 0 ↔ r = .g711 ∧ (c = 0xFF ∨ c = 0x7F) := by
  cases r with
  | g711 => simpa [ulawDecode] using ulawDecodeG711_eq_zero_iff hc
  | docLiteral => simpa [ulawDecode] using ulawDecodeDoc_ne_zero c

/-! ### The commands -/

/-- The range of either rule is a range of samples. -/
theorem resultLimit_le (r : MulawDecodeRule) : resultLimit r ≤ 32512 := by
  cases r <;> decide

/-- Settles O48: a command writes the pattern of its value, which is 0x0000 only for the value 0. -/
theorem commandsThatWriteZero : Obligations.CommandsThatWriteZero := by
  intro i s t hwf h
  rw [exec_eq] at h
  cases h
  rw [State.writeResult_result]
  cases i with
  | alawEnc x =>
    have hx : -32768 ≤ x ∧ x ≤ 32767 := by simpa [Instr.wellFormed, isSample] using hwf
    have hlt := alawEncode_lt x
    exact (zext16_eq_zero_iff (by omega)).trans (alawEncode_eq_zero_iff hx.1)
  | ulawEnc x =>
    have hlt := ulawEncode_lt x
    exact (zext16_eq_zero_iff (by omega)).trans (ulawEncode_eq_zero_iff x)
  | alawDec hi c =>
    obtain ⟨-, hc⟩ : hi ≤ 255 ∧ c ≤ 255 := by simpa [Instr.wellFormed, isByte] using hwf
    obtain ⟨h0, h1⟩ := alawDecode_range c
    exact (bits16_eq_zero_iff (by omega) (by omega)).trans (iff_false_intro (alawDecode_ne_zero hc))
  | ulawDec hi c =>
    obtain ⟨-, hc⟩ : hi ≤ 255 ∧ c ≤ 255 := by simpa [Instr.wellFormed, isByte] using hwf
    obtain ⟨h0, h1⟩ := ulawDecode_range s.config.mulawDecodeRule c
    have hlim := resultLimit_le s.config.mulawDecodeRule
    exact (bits16_eq_zero_iff (by omega) (by omega)).trans (ulawDecode_eq_zero_iff _ hc)
  | segSearch m =>
    have hm : m ≤ 65535 := by simpa [Instr.wellFormed, isMagnitude] using hwf
    have hle := seg_le_eight m
    exact (zext16_eq_zero_iff (by omega)).trans (seg_eq_zero_iff hm)

/-! ### Reset -/

/-- Settles O20: the action's words are not performed, and ILL 0 is STATUS 0. -/
theorem resetClearsRegistersAndWins : Obligations.ResetClearsRegistersAndWins :=
  fun s during => ⟨s.resetCore, step_push s (.reset during), rfl, State.status_eq s.resetCore,
    congrArg Config.mulawDecodeRule (State.resetCore_config s)⟩

/-- Settles O21: ILL 0 is STATUS 0. -/
theorem resetStateIsZero : Obligations.ResetStateIsZero := ⟨rfl, State.status_eq State.reset⟩

/-- Settles O50: no action is pending, and 0 is in the range of the default build. -/
theorem resetMeetsResultRange : Obligations.ResetMeetsResultRange :=
  ⟨rfl, inRange_zext16 State.reset.config.mulawDecodeRule (v := 0) (by decide)⟩

end Sys2Proof.Machine
end

section
/-! PROOFS. The statements of 30_encoding.md on words and commands: the decode step and the encoder undo each
other, the opcode map of section 3 lists the legal words, and the words of the manual decode as it says. -/

namespace Sys2Proof.Machine

/-! ### From a command to its word and back -/

/-- A word with the A-law encoder's OP is legal, whatever its DATA (R41). -/
theorem decode_commandWord_alawEnc (d : Half) : decode (commandWord 0#3 d) = .instr (.alawEnc (s16 d)) := by
  simp [decode]

/-- A word with the μ-law encoder's OP is legal, whatever its DATA (R41). -/
theorem decode_commandWord_ulawEnc (d : Half) : decode (commandWord 2#3 d) = .instr (.ulawEnc (s16 d)) := by
  simp [decode]

/-- A word with the segment search's OP is legal, whatever its DATA (R41). -/
theorem decode_commandWord_segSearch (d : Half) :
    decode (commandWord 4#3 d) = .instr (.segSearch d.toNat) := by
  simp [decode]

/-- The code of a decoder's DATA built from two bytes (R41). -/
theorem codeField_ofNat_append (hi : Nat) {c : Nat} (hc : c ≤ 255) :
    (codeField (BitVec.ofNat 8 hi ++ BitVec.ofNat 8 c)).toNat = c := by
  rw [codeField_append, BitVec.toNat_ofNat, Nat.mod_eq_of_lt (by omega)]

/-- The ignored byte of a decoder's DATA built from two bytes (R44). -/
theorem ignoredField_ofNat_append {hi : Nat} (hhi : hi ≤ 255) (c : Nat) :
    (ignoredField (BitVec.ofNat 8 hi ++ BitVec.ofNat 8 c)).toNat = hi := by
  rw [ignoredField_append, BitVec.toNat_ofNat, Nat.mod_eq_of_lt (by omega)]

/-- Settles O1: the word of a command has its OP and its DATA, and each operand in range is read back from
the DATA. -/
theorem decodeOfEncodeIsTheCommand : Obligations.DecodeOfEncodeIsTheCommand := by
  intro i hwf
  cases i with
  | alawEnc x =>
    have hx : -32768 ≤ x ∧ x ≤ 32767 := by simpa [Instr.wellFormed, isSample] using hwf
    rw [encode, opOf, dataOf, decode_commandWord_alawEnc, s16_bits16 hx.1 hx.2]
  | alawDec hi c =>
    obtain ⟨hhi, hc⟩ : hi ≤ 255 ∧ c ≤ 255 := by simpa [Instr.wellFormed, isByte] using hwf
    rw [encode, opOf, dataOf, decode_commandWord_alawDec, ignoredField_ofNat_append hhi,
      codeField_ofNat_append hi hc]
  | ulawEnc x =>
    have hx : -32768 ≤ x ∧ x ≤ 32767 := by simpa [Instr.wellFormed, isSample] using hwf
    rw [encode, opOf, dataOf, decode_commandWord_ulawEnc, s16_bits16 hx.1 hx.2]
  | ulawDec hi c =>
    obtain ⟨hhi, hc⟩ : hi ≤ 255 ∧ c ≤ 255 := by simpa [Instr.wellFormed, isByte] using hwf
    rw [encode, opOf, dataOf, decode_commandWord_ulawDec, ignoredField_ofNat_append hhi,
      codeField_ofNat_append hi hc]
  | segSearch m =>
    have hm : m ≤ 65535 := by simpa [Instr.wellFormed, isMagnitude] using hwf
    rw [encode, opOf, dataOf, decode_commandWord_segSearch, zext16_toNat (by omega)]

/-- Settles O2: the decode step reads operands in range, and encoding puts the same fields back. -/
theorem encodeOfDecodeIsTheWord : Obligations.EncodeOfDecodeIsTheWord :=
  fun _ _ hdec => ⟨wellFormed_of_decode hdec, encode_of_decode hdec⟩

/-! ### The opcode map -/

/-- The mask of every row keeps a word's RSVD and OP and clears its DATA (30_encoding.md section 3). -/
theorem and_rowMask_toNat (w : Cmd) : (w &&& 0xFFFF0000#32).toNat = w.toNat / 2 ^ 16 * 2 ^ 16 := by
  have hmask : 0xFFFF0000#32 = BitVec.allOnes 32 <<< 16 := by decide
  have hlt := w.isLt
  rw [hmask, ← BitVec.shiftLeft_ushiftRight, BitVec.toNat_shiftLeft, BitVec.toNat_ushiftRight,
    Nat.shiftRight_eq_div_pow, Nat.shiftLeft_eq, Nat.mod_eq_of_lt (by omega)]

/-- What a row asks of a word: the word's RSVD and OP are those of the row's pattern. -/
theorem accepts_iff {r : OpcodeRow} (hr : r ∈ opcodeMap) (w : Cmd) :
    r.accepts w = true ↔ w.toNat / 2 ^ 16 * 2 ^ 16 = r.pattern.toNat := by
  have hmask : ∀ r ∈ opcodeMap, r.mask = 0xFFFF0000#32 := by decide
  rw [OpcodeRow.accepts, decide_eq_true_iff, hmask r hr, ← BitVec.toNat_inj, and_rowMask_toNat]

/-- A word that matches a row is legal. -/
theorem legalWord_of_accepts {r : OpcodeRow} (hr : r ∈ opcodeMap) {w : Cmd} (h : r.accepts w = true) :
    legalWord w = true := by
  have hpattern : ∀ r ∈ opcodeMap, r.pattern.toNat ≤ 4 * 2 ^ 16 := by decide
  have hle := hpattern r hr
  rw [accepts_iff hr] at h
  exact legalWord_of_fields (by omega) (by omega)

/-- The row whose pattern has a command's OP is the row with its mnemonic (R40). -/
theorem pattern_eq_iff {r : OpcodeRow} (hr : r ∈ opcodeMap) (i : Instr) :
    r.pattern.toNat = (opOf i).toNat * 2 ^ 16 ↔ r.mnemonic = i.mnemonic := by
  revert r
  cases i <;> simp only [opOf, Instr.mnemonic] <;> decide

/-- A legal word matches the rows with the mnemonic of its command, and no others. -/
theorem accepts_iff_mnemonic {r : OpcodeRow} (hr : r ∈ opcodeMap) {w : Cmd} {i : Instr}
    (hdec : decode w = .instr i) : r.accepts w = true ↔ r.mnemonic = i.mnemonic := by
  have hw : w.toNat / 2 ^ 16 * 2 ^ 16 = (opOf i).toNat * 2 ^ 16 := by
    have := (dataOf i).isLt
    rw [← encode_of_decode hdec, encode, commandWord_toNat]
    omega
  rw [accepts_iff hr, hw, eq_comm, pattern_eq_iff hr]

/-- The map has one row for each mnemonic. -/
theorem opcodeMap_filter_mnemonic_length (mn : Mnemonic) :
    (opcodeMap.filter (fun r => decide (r.mnemonic = mn))).length = 1 := by
  cases mn <;> decide

/-- Settles O4: a legal word matches the rows with its command's mnemonic, of which there is one, and a word
that matches a row is legal. -/
theorem legalWordsMatchExactlyOneRow : Obligations.LegalWordsMatchExactlyOneRow := by
  intro w
  have hrows : ∀ i, decode w = .instr i → opcodeMap.filter (fun r => r.accepts w) =
      opcodeMap.filter (fun r => decide (r.mnemonic = i.mnemonic)) := fun i hdec =>
    List.filter_congr fun r hr => by
      rw [Bool.eq_iff_iff, decide_eq_true_iff, accepts_iff_mnemonic hr hdec]
  refine ⟨?_, hrows⟩
  by_cases hw : legalWord w = true
  · obtain ⟨i, hdec⟩ := (legalWord_iff w).1 hw
    rw [if_pos hw, hrows i hdec, opcodeMap_filter_mnemonic_length]
  · have hnone : opcodeMap.filter (fun r => r.accepts w) = [] :=
      List.filter_eq_nil_iff.2 fun r hr hacc => hw (legalWord_of_accepts hr hacc)
    rw [if_neg hw, hnone, List.length_nil]

/-! ### Words of the manual -/

/-- Settles O5: the decode step, evaluated on each of the eight words. -/
theorem wordsOfTheManualDecode : Obligations.WordsOfTheManualDecode := by
  unfold Obligations.WordsOfTheManualDecode
  decide

end Sys2Proof.Machine
end
